-- ==== Sys2Proof/Word.lean ====
section
/-! DEFINITION. The word types of PWCORE (spec/00_scope.md R9, R10): a byte, a MachineWord of 32 bits and a
WideWord of 64 bits. `u(v)` of R11 is `BitVec.toNat`, `s_N(v)` is `BitVec.toInt`, `bits_N(i)` is `BitVec.ofInt N i`;
`zext_N` of R12 is `BitVec.setWidth N` and `sext_N` is `BitVec.signExtend N`. -/

namespace Sys2Proof

/-- One byte of the scratch buffer (R17). -/
abbrev Byte := BitVec 8

/-- MachineWord: a 32-bit two's-complement integer (R9, `W32`; glossary). -/
abbrev Word32 := BitVec 32

/-- WideWord: a 64-bit two's-complement integer in canonical form (R9, `W64`; glossary); also what a port carries. -/
abbrev Word64 := BitVec 64

end Sys2Proof
end

