-- ==== Sys2Proof/Config.lean ====
section
/-! DEFINITION. What is fixed for one PWCORE but not for all: the parameters that spec/00_scope.md R9 and
spec/92_eei_decisions.md leave OPEN, each an opaque constant with no body, so that no proof can see its value. -/

namespace Sys2Proof.Config

/-- The size of the scratch buffer in bytes (R9, R32). -/
def scratchBytes : Nat := 8

/-- The FREE VALUE of the reset contents of the scratch buffer (R36, R210, spec/93_implementation_defined.md I7: `any
value`): what byte `offset` of the buffer of instance `unit` holds after that instance's `resets`-th reset, until
a command writes it. Log entry 1. -/
opaque scratchAtReset (unit resets offset : Nat) : Byte

/-- `LATENCY` (R9, R216, D16): the time from a command to its answer. OPEN and finite; no rule of the spec and no
definition of the model depends on it (a command is one atomic step). Log entry 7. -/
opaque latency : Nat

/-- How many instances a system holds beyond its first (see `nInst`). -/
opaque furtherInstances : Nat

/-- `N_INST` (R9, R201, D22): the number of instances in a system. OPEN, at least 1 (spec/92_eei_decisions.md,
Parameters left OPEN). Log entry 8. -/
def nInst : Nat := furtherInstances + 1

end Sys2Proof.Config
end

