-- ==== Sys2Proof/Syntax.lean ====
section
/-! DEFINITION. The syntax of PWCORE: the command a caller presents (spec/30_encoding.md R70), the operation groups
(R72) and the instructions, one constructor per row of spec/opcode_table.json. -/

namespace Sys2Proof

/-- A command as it stands on the input ports (R30, R70): an 8-bit `op` and the operands `A` and `B`, presented
together. Every command has this one format and length (R82). -/
structure Command where
  op : BitVec 8
  a : Word64
  b : Word64
  deriving DecidableEq, Repr

/-- The operation groups that `op[7:5]` selects (R72). Codes `110` and `111` select none. -/
inductive Group where
  | int32 | int64 | sext64 | bitcast | fsign | truncsat
  deriving DecidableEq, Repr

/-- A legal command (R73 to R78), with the values on `A` and `B`. Every constructor carries both operands, as every
command does (R70); an operation of one operand ignores `b`. -/
inductive Instr where
  /-- `ROTL32`, `op = 0x00` (R124): x = A[31:0], n = B[4:0]. -/
  | rotl32 (a b : Word64)
  /-- `ROTR32`, `op = 0x01` (R125): x = A[31:0], n = B[4:0]. -/
  | rotr32 (a b : Word64)
  /-- `CLZ32`, `op = 0x02` (R127): x = A[31:0]. -/
  | clz32 (a b : Word64)
  /-- `CTZ32`, `op = 0x03` (R126): x = A[31:0]. -/
  | ctz32 (a b : Word64)
  /-- `POPCNT32`, `op = 0x04` (R128): x = A[31:0]. -/
  | popcnt32 (a b : Word64)
  /-- `ROTL64`, `op = 0x20` (R141): x = A, n = B[5:0]. -/
  | rotl64 (a b : Word64)
  /-- `ROTR64`, `op = 0x21` (R142): x = A, n = B[5:0]. -/
  | rotr64 (a b : Word64)
  /-- `CLZ64`, `op = 0x22` (R143): x = A. -/
  | clz64 (a b : Word64)
  /-- `CTZ64`, `op = 0x23` (R144): x = A. -/
  | ctz64 (a b : Word64)
  /-- `POPCNT64`, `op = 0x24` (R145): x = A. -/
  | popcnt64 (a b : Word64)
  /-- `SEXT8.64`, `op = 0x40` (R181): x = A (uses A[7:0]). -/
  | sext8 (a b : Word64)
  /-- `SEXT16.64`, `op = 0x41` (R182): x = A (uses A[15:0]). -/
  | sext16 (a b : Word64)
  /-- `SEXT32.64`, `op = 0x42` (R183): x = A (uses A[31:0]). -/
  | sext32 (a b : Word64)
  /-- `CAST.I32.F32`, `op = 0x60` (R100): x = A[31:0]. -/
  | castI32F32 (a b : Word64)
  /-- `CAST.F32.I32`, `op = 0x61` (R101): x = A[31:0]. -/
  | castF32I32 (a b : Word64)
  /-- `CAST.I64.F64`, `op = 0x62` (R102): x = A. -/
  | castI64F64 (a b : Word64)
  /-- `CAST.F64.I64`, `op = 0x63` (R103): x = A. -/
  | castF64I64 (a b : Word64)
  /-- `CAST.S64.U64`, `op = 0x64` (R104): x = A. -/
  | castS64U64 (a b : Word64)
  /-- `COPYSIGN.F32`, `op = 0x80` (R122): x = A[31:0], y = B[31:0]. -/
  | copysignF32 (a b : Word64)
  /-- `COPYSIGN.F64`, `op = 0x81` (R123): x = A, y = B. -/
  | copysignF64 (a b : Word64)
  /-- `TRUNCSAT.S32.F32`, `op = 0xA0` (R162): x = A[31:0] (binary32). -/
  | truncsatS32F32 (a b : Word64)
  /-- `TRUNCSAT.S32.F64`, `op = 0xA1` (R163): x = A (binary64). -/
  | truncsatS32F64 (a b : Word64)
  /-- `TRUNCSAT.U32.F32`, `op = 0xA2` (R164): x = A[31:0] (binary32). -/
  | truncsatU32F32 (a b : Word64)
  /-- `TRUNCSAT.U32.F64`, `op = 0xA3` (R165): x = A (binary64). -/
  | truncsatU32F64 (a b : Word64)
  /-- `TRUNCSAT.S64.F32`, `op = 0xA4` (R166): x = A[31:0] (binary32). -/
  | truncsatS64F32 (a b : Word64)
  /-- `TRUNCSAT.S64.F64`, `op = 0xA5` (R167): x = A (binary64). -/
  | truncsatS64F64 (a b : Word64)
  /-- `TRUNCSAT.U64.F32`, `op = 0xA6` (R168): x = A[31:0] (binary32). -/
  | truncsatU64F32 (a b : Word64)
  /-- `TRUNCSAT.U64.F64`, `op = 0xA7` (R169): x = A (binary64). -/
  | truncsatU64F64 (a b : Word64)
  deriving DecidableEq, Repr

end Sys2Proof
end

