-- ==== Sys2Proof/WellFormed.lean ====
section
/-! DEFINITION. Well-formedness of a command: its `op` is legal. The check is written from the list of reserved ranges of
spec/30_encoding.md R80, not from the decoder's case tree (R83), so that the two can be held against each other. There is
no check on an operand: every value of `A` and `B` is admitted (R79, R190), so every `Instr` is well-formed. -/

namespace Sys2Proof

/-- The reserved ranges of `op`, first and last code of each, as R80 lists them. -/
def reservedRanges : List (Nat × Nat) :=
  [(0x05, 0x1F), (0x25, 0x3F), (0x43, 0x5F), (0x65, 0x7F), (0x82, 0x9F), (0xA8, 0xBF), (0xC0, 0xFF)]

/-- `op` lies in a reserved range (R80). -/
def isReservedOp (op : BitVec 8) : Bool :=
  reservedRanges.any fun r => decide (r.1 ≤ op.toNat ∧ op.toNat ≤ r.2)

/-- A command is well-formed when its `op` is one of the 28 legal values (R80). -/
def Command.wf (c : Command) : Bool := !isReservedOp c.op

end Sys2Proof
end

