-- ==== Sys2Proof/Decode.lean ====
section
/-! DEFINITION. Decoding a command, total on the 256 values of `op` and rejecting by name (spec/30_encoding.md R71 to
R78, R83), and encoding an instruction. -/

namespace Sys2Proof

/-- Why an `op` names no operation (R80): its group has no function of that number, or its group code is `110` or
`111`. -/
inductive Reserved where
  | unusedFunction (g : Group) (fn : BitVec 5)
  | unusedGroup (code : BitVec 3)
  deriving DecidableEq, Repr

/-- What the decoder answers. -/
inductive Decoded where
  | instr (i : Instr)
  | reserved (why : Reserved)
  deriving DecidableEq, Repr

/-- `G = op[7:5]` (R71). -/
def opGroup (op : BitVec 8) : BitVec 3 := op.extractLsb' 5 3

/-- `FN = op[4:0]` (R71). -/
def opFunction (op : BitVec 8) : BitVec 5 := op.extractLsb' 0 5

/-- Group INT32 (R73). -/
def decodeInt32 (fn : BitVec 5) (a b : Word64) : Decoded :=
  match fn.toNat with
  | 0 => .instr (.rotl32 a b)
  | 1 => .instr (.rotr32 a b)
  | 2 => .instr (.clz32 a b)
  | 3 => .instr (.ctz32 a b)
  | 4 => .instr (.popcnt32 a b)
  | _ => .reserved (.unusedFunction .int32 fn)

/-- Group INT64 (R74). -/
def decodeInt64 (fn : BitVec 5) (a b : Word64) : Decoded :=
  match fn.toNat with
  | 0 => .instr (.rotl64 a b)
  | 1 => .instr (.rotr64 a b)
  | 2 => .instr (.clz64 a b)
  | 3 => .instr (.ctz64 a b)
  | 4 => .instr (.popcnt64 a b)
  | _ => .reserved (.unusedFunction .int64 fn)

/-- Group SEXT64 (R75). -/
def decodeSext64 (fn : BitVec 5) (a b : Word64) : Decoded :=
  match fn.toNat with
  | 0 => .instr (.sext8 a b)
  | 1 => .instr (.sext16 a b)
  | 2 => .instr (.sext32 a b)
  | _ => .reserved (.unusedFunction .sext64 fn)

/-- Group BITCAST (R76). -/
def decodeBitcast (fn : BitVec 5) (a b : Word64) : Decoded :=
  match fn.toNat with
  | 0 => .instr (.castI32F32 a b)
  | 1 => .instr (.castF32I32 a b)
  | 2 => .instr (.castI64F64 a b)
  | 3 => .instr (.castF64I64 a b)
  | 4 => .instr (.castS64U64 a b)
  | _ => .reserved (.unusedFunction .bitcast fn)

/-- Group FSIGN (R77): `FN[0]` is the format. -/
def decodeFsign (fn : BitVec 5) (a b : Word64) : Decoded :=
  match fn.toNat with
  | 0 => .instr (.copysignF32 a b)
  | 1 => .instr (.copysignF64 a b)
  | _ => .reserved (.unusedFunction .fsign fn)

/-- The truncation that the fields `D = FN[2]`, `U = FN[1]` and `F = FN[0]` select (R78): the destination is 64 bits
wide, is unsigned, and the source is binary64. -/
def truncsatOf (d u f : Bool) (a b : Word64) : Instr :=
  match d, u, f with
  | false, false, false => .truncsatS32F32 a b
  | false, false, true => .truncsatS32F64 a b
  | false, true, false => .truncsatU32F32 a b
  | false, true, true => .truncsatU32F64 a b
  | true, false, false => .truncsatS64F32 a b
  | true, false, true => .truncsatS64F64 a b
  | true, true, false => .truncsatU64F32 a b
  | true, true, true => .truncsatU64F64 a b

/-- Group TRUNCSAT (R78): `FN[4:3]` must be `00`. -/
def decodeTruncsat (fn : BitVec 5) (a b : Word64) : Decoded :=
  if fn.extractLsb' 3 2 = 0 then
    .instr (truncsatOf (fn.getLsbD 2) (fn.getLsbD 1) (fn.getLsbD 0) a b)
  else .reserved (.unusedFunction .truncsat fn)

/-- The decoder of R83. It looks at `op` alone; the operands pass through. -/
def decode : Command → Decoded
  | ⟨op, a, b⟩ =>
    match (opGroup op).toNat with
    | 0 => decodeInt32 (opFunction op) a b
    | 1 => decodeInt64 (opFunction op) a b
    | 2 => decodeSext64 (opFunction op) a b
    | 3 => decodeBitcast (opFunction op) a b
    | 4 => decodeFsign (opFunction op) a b
    | 5 => decodeTruncsat (opFunction op) a b
    | _ => .reserved (.unusedGroup (opGroup op))

/-- The `op` of an instruction, from the map of R73 to R78. -/
def opcode : Instr → BitVec 8
  | .rotl32 _ _ => 0x00
  | .rotr32 _ _ => 0x01
  | .clz32 _ _ => 0x02
  | .ctz32 _ _ => 0x03
  | .popcnt32 _ _ => 0x04
  | .rotl64 _ _ => 0x20
  | .rotr64 _ _ => 0x21
  | .clz64 _ _ => 0x22
  | .ctz64 _ _ => 0x23
  | .popcnt64 _ _ => 0x24
  | .sext8 _ _ => 0x40
  | .sext16 _ _ => 0x41
  | .sext32 _ _ => 0x42
  | .castI32F32 _ _ => 0x60
  | .castF32I32 _ _ => 0x61
  | .castI64F64 _ _ => 0x62
  | .castF64I64 _ _ => 0x63
  | .castS64U64 _ _ => 0x64
  | .copysignF32 _ _ => 0x80
  | .copysignF64 _ _ => 0x81
  | .truncsatS32F32 _ _ => 0xA0
  | .truncsatS32F64 _ _ => 0xA1
  | .truncsatU32F32 _ _ => 0xA2
  | .truncsatU32F64 _ _ => 0xA3
  | .truncsatS64F32 _ _ => 0xA4
  | .truncsatS64F64 _ _ => 0xA5
  | .truncsatU64F32 _ _ => 0xA6
  | .truncsatU64F64 _ _ => 0xA7

/-- The value an instruction has on port `A`. -/
def operandA : Instr → Word64
  | .rotl32 a _ => a
  | .rotr32 a _ => a
  | .clz32 a _ => a
  | .ctz32 a _ => a
  | .popcnt32 a _ => a
  | .rotl64 a _ => a
  | .rotr64 a _ => a
  | .clz64 a _ => a
  | .ctz64 a _ => a
  | .popcnt64 a _ => a
  | .sext8 a _ => a
  | .sext16 a _ => a
  | .sext32 a _ => a
  | .castI32F32 a _ => a
  | .castF32I32 a _ => a
  | .castI64F64 a _ => a
  | .castF64I64 a _ => a
  | .castS64U64 a _ => a
  | .copysignF32 a _ => a
  | .copysignF64 a _ => a
  | .truncsatS32F32 a _ => a
  | .truncsatS32F64 a _ => a
  | .truncsatU32F32 a _ => a
  | .truncsatU32F64 a _ => a
  | .truncsatS64F32 a _ => a
  | .truncsatS64F64 a _ => a
  | .truncsatU64F32 a _ => a
  | .truncsatU64F64 a _ => a

/-- The value an instruction has on port `B`. -/
def operandB : Instr → Word64
  | .rotl32 _ b => b
  | .rotr32 _ b => b
  | .clz32 _ b => b
  | .ctz32 _ b => b
  | .popcnt32 _ b => b
  | .rotl64 _ b => b
  | .rotr64 _ b => b
  | .clz64 _ b => b
  | .ctz64 _ b => b
  | .popcnt64 _ b => b
  | .sext8 _ b => b
  | .sext16 _ b => b
  | .sext32 _ b => b
  | .castI32F32 _ b => b
  | .castF32I32 _ b => b
  | .castI64F64 _ b => b
  | .castF64I64 _ b => b
  | .castS64U64 _ b => b
  | .copysignF32 _ b => b
  | .copysignF64 _ b => b
  | .truncsatS32F32 _ b => b
  | .truncsatS32F64 _ b => b
  | .truncsatU32F32 _ b => b
  | .truncsatU32F64 _ b => b
  | .truncsatS64F32 _ b => b
  | .truncsatS64F64 _ b => b
  | .truncsatU64F32 _ b => b
  | .truncsatU64F64 _ b => b

/-- The command of an instruction (R70). -/
def encode (i : Instr) : Command := ⟨opcode i, operandA i, operandB i⟩

/-- The command whose bits, numbered as spec/opcode_table.json numbers them, are the low `nbits` bits of `w`: `op` in
bits 7 to 0, as the table says, then `A` in bits 71 to 8 and `B` in bits 135 to 72. The spec numbers no bit of `A` or
`B`, since the ports are parallel (R30): their places here are a DESIGN CHOICE, log entry 9. -/
def commandOfTableWord (nbits w : Nat) : Command :=
  ⟨BitVec.ofNat 8 (w % 2 ^ nbits), BitVec.ofNat 64 (w % 2 ^ nbits / 2 ^ 8), BitVec.ofNat 64 (w % 2 ^ nbits / 2 ^ 72)⟩

/-- The instruction the decoder reads from a table word; `none` where it refuses. -/
def decodeTableWord (nbits w : Nat) : Option Instr :=
  match decode (commandOfTableWord nbits w) with
  | .instr i => some i
  | .reserved _ => none

end Sys2Proof
end

