-- ==== Sys2Proof/Machine/State.lean ====
section
/-! DEFINITION. The state of one PWCORE instance, its faults and refusals, and the state after reset. The spec gives the
unit one piece of state, the scratch buffer (spec/10_state.md section 4); the other fields are the model's own and stand
for the outside of the unit (INVENTORY.md, State). -/

namespace Sys2Proof.Machine

/-- The scratch buffer's bytes written since the last reset, as pairs of offset and byte. -/
abbrev Memory := List Host.Cell

/-- The canonical form: offsets strictly rising, and none above 7 (R50: byte offsets 0 to 7). An offset that is not listed
has no written byte, so there is no entry for it to be equal to: what it reads as is a free value, which nothing can
compare with (log entry 1). -/
abbrev Memory.wf (m : Memory) : Prop :=
  m.Pairwise (fun x y => x.1 < y.1) ∧ ∀ c ∈ m, c.1 < Config.scratchBytes

/-- An answer as it stands on the output ports (R18, R30): the result `R` and the `ILLEGAL` bit. -/
structure Answer where
  r : Word64
  illegal : Bool
  deriving DecidableEq, Repr

/-- What the outside does to the unit: a caller presents a command (R30), or the platform resets the unit, with the
command that the reset cuts if one is in progress (R211). -/
inductive Input where
  | command (c : Command)
  | reset (cut : Option Command)
  deriving DecidableEq, Repr

/-- The state of one instance. -/
structure State where
  /-- `S[0..7]` (R32): the bytes written since the last reset, in canonical form. -/
  scratch : Memory
  /-- The model's own: the instance's number, which picks its free draw of `S` (R37, log entry 2). -/
  unit : Nat
  /-- The model's own: how many reset inputs the instance has taken; each draws `S` anew (R211, log entry 2). -/
  resets : Nat
  /-- The model's own: what the outside has done that the unit has not yet taken, oldest first (R59, log entry 3). -/
  inputs : List Input
  /-- The model's own: the answers given so far, oldest first (the observation of R217, log entry 4). -/
  answers : List Answer
  deriving DecidableEq, Repr

/-- The faults. -/
inductive Fault where
  /-- Raised by the scratch primitives for an access of `n` bytes at `off` with `off + n > 8`: "No other address exists"
  (R17). No instruction reaches it, since every lane starts at offset 0 (R33). Safe (log entry 11). -/
  | noSuchOffset (off n : Nat)
  deriving DecidableEq, Repr

/-- The refusals. -/
inductive Refusal where
  /-- Raised by `exec` for an instruction that has no meaning yet; there is none left. Safe. -/
  | notModelled (mnemonic : String)
  deriving DecidableEq, Repr

/-- The instance `unit` right after reset (R210): `S` unspecified, so nothing of it is listed, and the unit idle. -/
def State.resetOf (unit : Nat) : State :=
  { scratch := [], unit := unit, resets := 0, inputs := [], answers := [] }

/-- The machine right after reset (R210). -/
def State.reset : State := State.resetOf 0

end Sys2Proof.Machine
end

