-- ==== Sys2Proof/Machine/Flags.lean ====
section
/-! DEFINITION. The unit has no flags (spec/10_state.md R40). Its one status output is `ILLEGAL`, a part of each answer and
never sticky: this file says what it is in the two kinds of answer. -/

namespace Sys2Proof.Machine

/-- The answer of a legal operation with result `r`: `ILLEGAL = 0` (R18, R190). -/
def legalAnswer (r : Word64) : Answer := ⟨r, false⟩

/-- The answer to a reserved `op`: `ILLEGAL = 1` and `R = 0` (R192). -/
def illegalAnswer : Answer := ⟨0x0000000000000000, true⟩

end Sys2Proof.Machine
end

