-- ==== Sys2Proof/Machine/Operands.lean ====
section
/-! DEFINITION. Operand assembly and result placement (spec/00_scope.md R19, spec/30_encoding.md R79): which bits of the
ports `A` and `B` an operation takes, and where its result stands in `R`. -/

namespace Sys2Proof.Machine

/-- A 32-bit operand: bits 31 to 0 of a port; bits 63 to 32 are ignored (R19, R79). -/
def word32 (port : Word64) : Word32 := port.extractLsb' 0 32

/-- The high half `A[63:32]` (R143, R144). -/
def highHalf (port : Word64) : Word32 := port.extractLsb' 32 32

/-- The rotate amount of a 32-bit rotate, `u(B[4:0])` (R79). -/
def amount32 (b : Word64) : Nat := (b.extractLsb' 0 5).toNat

/-- The rotate amount of a 64-bit rotate, `u(B[5:0])` (R79). -/
def amount64 (b : Word64) : Nat := (b.extractLsb' 0 6).toNat

/-- A 32-bit result, zero-extended into `R` (R19). -/
def result32 (v : Word32) : Word64 := v.setWidth 64

/-- A count, `bits_64(c)` (R19). -/
def resultCount (c : Nat) : Word64 := BitVec.ofNat 64 c

end Sys2Proof.Machine
end

