-- ==== Sys2Proof/Machine/Ops.lean ====
section
/-! DEFINITION. The named operations over State: the scratch buffer's primitives and lanes (spec/00_scope.md R17,
spec/10_state.md R33), answering a command, the illegal-operation response (spec/60_exceptions.md R192), and taking an
input. The unit has no trap entry and no return from one (R194), so there is none here. -/

namespace Sys2Proof.Machine

/-! ### Updates of State -/

/-- `s` with the answer `x` given. -/
def State.addAnswer (s : State) (x : Answer) : State := { s with answers := s.answers ++ [x] }

/-- `s` with the scratch buffer's written bytes replaced. -/
def State.setScratch (s : State) (m : Memory) : State := { s with scratch := m }

/-- `s` with the waiting inputs replaced. -/
def State.setInputs (s : State) (l : List Input) : State := { s with inputs := l }

/-! ### The scratch buffer -/

/-- The byte written at `off`, if one was since the last reset. -/
def Memory.written (off : Nat) : Memory → Option Byte
  | [] => none
  | (k, x) :: m => if off = k then some x else Memory.written off m

/-- Writes one byte, keeping the offsets rising. -/
def Memory.put (off : Nat) (v : Byte) : Memory → Memory
  | [] => [(off, v)]
  | (k, x) :: m =>
    if off < k then (off, v) :: (k, x) :: m
    else if off = k then (off, v) :: m
    else (k, x) :: Memory.put off v m

/-- `S[off]`: the byte written there, or else the free value of the reset contents (R36). -/
def scratchByte (s : State) (off : Nat) : Byte :=
  (Memory.written off s.scratch).getD (Config.scratchAtReset s.unit s.resets off)

/-- `S[off+i] <- v[8i+7:8i]` for `i` in `0..n-1` (R17), on the list of written bytes. -/
def Memory.putBytes (off : Nat) (v : Word64) : Nat → Memory → Memory
  | 0, m => m
  | n + 1, m => Memory.put (off + n) (v.extractLsb' (8 * n) 8) (Memory.putBytes off v n m)

/-- `{S[off+n-1], ..., S[off]}` as a number of 64 bits, for `n <= 8` (R17). -/
def bytesAt (s : State) (off : Nat) : Nat → Word64
  | 0 => 0
  | n + 1 => bytesAt s off n ||| ((scratchByte s (off + n)).setWidth 64 <<< (8 * n))

/-- `MemWrite(off, n, v)` of R17, for `off + n <= 8`; no other address exists. -/
def memWrite (off n : Nat) (v : Word64) (s : State) : Except Fault State :=
  if off + n ≤ Config.scratchBytes then .ok (s.setScratch (Memory.putBytes off v n s.scratch))
  else .error (.noSuchOffset off n)

/-- `MemRead(off, n)` of R17, for `off + n <= 8`, zero-extended to 64 bits; no other address exists. -/
def memRead (off n : Nat) (s : State) : Except Fault Word64 :=
  if off + n ≤ Config.scratchBytes then .ok (bytesAt s off n) else .error (.noSuchOffset off n)

/-- The lanes of the scratch buffer (R33). -/
inductive Lane where
  | f32 | i32 | f64 | i64 | u64
  deriving DecidableEq, Repr

/-- How many bytes a lane has; every lane starts at byte 0 (R33). -/
def laneBytes : Lane → Nat
  | .f32 | .i32 => 4
  | .f64 | .i64 | .u64 => 8

/-- The integer a lane's pattern reads as (R33): `s_32`, `s_64` or `u`; the float lanes read as bit patterns. -/
def laneInteger : Lane → Word64 → Option Int
  | .i32, v => some (word32 v).toInt
  | .i64, v => some v.toInt
  | .u64, v => some v.toNat
  | .f32, _ | .f64, _ => none

/-! ### Answering -/

/-- A legal operation's end: `R <- r`, `ILLEGAL = 0` (R18, R190). -/
def answer (r : Word64) (s : State) : Host.Outcome State Fault Refusal :=
  .next (s.addAnswer (legalAnswer r))

/-- `raise IllegalOp()` (R192): `ILLEGAL <- 1`, `R <- 0`, `S' = S`. The unit's only exceptional outcome, an answer to the
command: nothing is saved, entered or sticky (R194), and the next command follows. Log entry 5. -/
def raiseIllegalOp (s : State) : Host.Outcome State Fault Refusal :=
  .next (s.addAnswer illegalAnswer)

/-- A bit reinterpretation (R100 to R104): write `v` to one lane, read the same bytes back through another, answer with
what was read. -/
def reinterpret (target source : Lane) (v : Word64) (s : State) : Host.Outcome State Fault Refusal :=
  match memWrite 0 (laneBytes target) v s with
  | .error f => .fault f
  | .ok s' =>
    match memRead 0 (laneBytes source) s' with
    | .error f => .fault f
    | .ok x => answer x s'

/-! ### Inputs -/

/-- The oldest waiting input, and the state that has taken it (R59). -/
def fetchInput (s : State) : Option (Input × State) :=
  match s.inputs with
  | [] => none
  | x :: rest => some (x, s.setInputs rest)

/-- No command is presented: the unit is idle and nothing changes (R57, R210). -/
def idle (s : State) : Host.Outcome State Fault Refusal := .next s

/-- A reset (R210, R211): `S` is unspecified again, drawn anew; a command in progress has no answer. Log entry 6. -/
def takeReset (_cut : Option Command) (s : State) : Host.Outcome State Fault Refusal :=
  .next { s with scratch := [], resets := s.resets + 1 }

end Sys2Proof.Machine
end

