-- ==== Sys2Proof/Machine/Bitcast.lean ====
section
/-! DEFINITION. The BITCAST group (spec/40_bitcast.md R100 to R106): each instruction writes its operand to one lane of `S`,
reads the same bytes back through another and answers with them. No value is converted (R106). -/

namespace Sys2Proof.Machine

/-- `CAST.I32.F32` (R100): `A[31:0]` written to the f32 lane, read back as i32. -/
def execCastI32F32 (a _b : Word64) (s : State) : Host.Outcome State Fault Refusal :=
  reinterpret .f32 .i32 (result32 (word32 a)) s

/-- `CAST.F32.I32` (R101): `A[31:0]` written to the i32 lane, read back as f32. -/
def execCastF32I32 (a _b : Word64) (s : State) : Host.Outcome State Fault Refusal :=
  reinterpret .i32 .f32 (result32 (word32 a)) s

/-- `CAST.I64.F64` (R102): `A` written to the f64 lane, read back as u64. -/
def execCastI64F64 (a _b : Word64) (s : State) : Host.Outcome State Fault Refusal :=
  reinterpret .f64 .u64 a s

/-- `CAST.F64.I64` (R103): `A` written to the u64 lane, read back as f64. -/
def execCastF64I64 (a _b : Word64) (s : State) : Host.Outcome State Fault Refusal :=
  reinterpret .u64 .f64 a s

/-- `CAST.S64.U64` (R104): `A` written to the u64 lane, read back as i64. -/
def execCastS64U64 (a _b : Word64) (s : State) : Host.Outcome State Fault Refusal :=
  reinterpret .u64 .i64 a s

end Sys2Proof.Machine
end

