-- ==== Sys2Proof/Machine/Fsign.lean ====
section
/-! DEFINITION. The FSIGN group (spec/41_bitops32.md R121 to R123). -/

namespace Sys2Proof.Machine

/-- `neg_F(y)`: the sign bit of a binary32 pattern, whatever it encodes, a NaN too (R121). -/
def negF32 (y : Word32) : Bool := y.getLsbD 31

/-- `neg_F(y)`: the sign bit of a binary64 pattern, whatever it encodes, a NaN too (R121). -/
def negF64 (y : Word64) : Bool := y.getLsbD 63

/-- The result of `COPYSIGN.F32` (R122): `zext_64({neg_F32(y), x[30:0]})` with `x = A[31:0]`, `y = B[31:0]`. -/
def copysignF32Result (a b : Word64) : Word64 :=
  result32 (BitVec.cons (negF32 (word32 b)) ((word32 a).extractLsb' 0 31))

/-- `COPYSIGN.F32` (R122): answer with its result; `S` is unchanged. -/
def execCopysignF32 (a b : Word64) (s : State) : Host.Outcome State Fault Refusal :=
  answer (copysignF32Result a b) s

/-- The result of `COPYSIGN.F64` (R123): `{neg_F64(y), x[62:0]}` with `x = A`, `y = B`. -/
def copysignF64Result (a b : Word64) : Word64 := BitVec.cons (negF64 b) (a.extractLsb' 0 63)

/-- `COPYSIGN.F64` (R123): answer with its result; `S` is unchanged. -/
def execCopysignF64 (a b : Word64) (s : State) : Host.Outcome State Fault Refusal :=
  answer (copysignF64Result a b) s

end Sys2Proof.Machine
end

