-- ==== Sys2Proof/Machine/Bits.lean ====
section
/-! DEFINITION. The counting and rotation primitives of spec/00_scope.md R13 and R14. -/

namespace Sys2Proof.Machine

/-- `rotl_N(v, k) = (v << k) | (v >> (N-k))` for `0 <= k < N` (R14). A shift by the full width gives zero (R10). -/
def rotl {w : Nat} (v : BitVec w) (k : Nat) : BitVec w := (v <<< k) ||| (v >>> (w - k))

/-- `rotr_N(v, k) = (v >> k) | (v << (N-k))` for `0 <= k < N` (R14). -/
def rotr {w : Nat} (v : BitVec w) (k : Nat) : BitVec w := (v >>> k) ||| (v <<< (w - k))

/-- The number of `i` below `n` with `v[i] = 1`. -/
def onesBelow {w : Nat} (v : BitVec w) : Nat → Nat
  | 0 => 0
  | i + 1 => onesBelow v i + if v.getLsbD i then 1 else 0

/-- `popcount(v)`: the number of `i` in `0..N-1` with `v[i] = 1` (R13). -/
def popcount {w : Nat} (v : BitVec w) : Nat := onesBelow v w

/-- The largest `i` below `n` with `v[i] = 1`, if there is one. -/
def highestOneBelow {w : Nat} (v : BitVec w) : Nat → Option Nat
  | 0 => none
  | i + 1 => if v.getLsbD i then some i else highestOneBelow v i

/-- The smallest `i` among the highest `n` places with `v[i] = 1`, if there is one. -/
def lowestOneOfTop {w : Nat} (v : BitVec w) : Nat → Option Nat
  | 0 => none
  | n + 1 => if v.getLsbD (w - (n + 1)) then some (w - (n + 1)) else lowestOneOfTop v n

/-- `clz_N(v)`: `N` when `v = 0`, and otherwise `N-1-h` with `h` the largest `i` with `v[i] = 1` (R13). -/
def clz {w : Nat} (v : BitVec w) : Nat :=
  match highestOneBelow v w with
  | none => w
  | some h => w - 1 - h

/-- `ctz_N(v)`: `N` when `v = 0`, and otherwise the smallest `i` with `v[i] = 1` (R13). -/
def ctz {w : Nat} (v : BitVec w) : Nat :=
  match lowestOneOfTop v w with
  | none => w
  | some l => l

end Sys2Proof.Machine
end

