-- ==== Sys2Proof/Machine/Int32.lean ====
section
/-! DEFINITION. The INT32 group (spec/41_bitops32.md R120, R124 to R128): each instruction answers with its result, writes no flag and
leaves `S` unchanged. -/

namespace Sys2Proof.Machine

/-- The result of `ROTL32` (R124): `zext_64(rotl_32(A[31:0], u(B[4:0])))`. -/
def rotl32Result (a b : Word64) : Word64 := result32 (rotl (word32 a) (amount32 b))

/-- `ROTL32` (R124): answer with its result; `S` is unchanged. -/
def execRotl32 (a b : Word64) (s : State) : Host.Outcome State Fault Refusal :=
  answer (rotl32Result a b) s

/-- The result of `ROTR32` (R125): `zext_64(rotr_32(A[31:0], u(B[4:0])))`. -/
def rotr32Result (a b : Word64) : Word64 := result32 (rotr (word32 a) (amount32 b))

/-- `ROTR32` (R125): answer with its result; `S` is unchanged. -/
def execRotr32 (a b : Word64) (s : State) : Host.Outcome State Fault Refusal :=
  answer (rotr32Result a b) s

/-- The result of `CLZ32` (R127): `bits_64(clz_32(A[31:0]))`. -/
def clz32Result (a : Word64) : Word64 := resultCount (clz (word32 a))

/-- `CLZ32` (R127): answer with its result; `S` is unchanged. -/
def execClz32 (a _b : Word64) (s : State) : Host.Outcome State Fault Refusal :=
  answer (clz32Result a) s

/-- The result of `CTZ32` (R126): `bits_64(ctz_32(A[31:0]))`. -/
def ctz32Result (a : Word64) : Word64 := resultCount (ctz (word32 a))

/-- `CTZ32` (R126): answer with its result; `S` is unchanged. -/
def execCtz32 (a _b : Word64) (s : State) : Host.Outcome State Fault Refusal :=
  answer (ctz32Result a) s

/-- The result of `POPCNT32` (R128): `bits_64(popcount(A[31:0]))`. -/
def popcnt32Result (a : Word64) : Word64 := resultCount (popcount (word32 a))

/-- `POPCNT32` (R128): answer with its result; `S` is unchanged. -/
def execPopcnt32 (a _b : Word64) (s : State) : Host.Outcome State Fault Refusal :=
  answer (popcnt32Result a) s

end Sys2Proof.Machine
end

