-- ==== Sys2Proof/Machine/Int64.lean ====
section
/-! DEFINITION. The INT64 group (spec/42_bitops64.md R140 to R145): each instruction answers with its result, writes no flag and
leaves `S` unchanged. -/

namespace Sys2Proof.Machine

/-- The result of `ROTL64` (R141): `rotl_64(A, u(B[5:0]))`. -/
def rotl64Result (a b : Word64) : Word64 := rotl a (amount64 b)

/-- `ROTL64` (R141): answer with its result; `S` is unchanged. -/
def execRotl64 (a b : Word64) (s : State) : Host.Outcome State Fault Refusal :=
  answer (rotl64Result a b) s

/-- The result of `ROTR64` (R142): `rotr_64(A, u(B[5:0]))`. -/
def rotr64Result (a b : Word64) : Word64 := rotr a (amount64 b)

/-- `ROTR64` (R142): answer with its result; `S` is unchanged. -/
def execRotr64 (a b : Word64) (s : State) : Host.Outcome State Fault Refusal :=
  answer (rotr64Result a b) s

/-- The result of `CLZ64` (R143): the leading zeros of the high half, and if that half is zero those of the low half added. -/
def clz64Result (a : Word64) : Word64 :=
  resultCount (if highHalf a = 0 then clz (highHalf a) + clz (word32 a) else clz (highHalf a))

/-- `CLZ64` (R143): answer with its result; `S` is unchanged. -/
def execClz64 (a _b : Word64) (s : State) : Host.Outcome State Fault Refusal :=
  answer (clz64Result a) s

/-- The result of `CTZ64` (R144): the trailing zeros of the low half, and if that half is zero those of the high half added. -/
def ctz64Result (a : Word64) : Word64 :=
  resultCount (if word32 a = 0 then ctz (word32 a) + ctz (highHalf a) else ctz (word32 a))

/-- `CTZ64` (R144): answer with its result; `S` is unchanged. -/
def execCtz64 (a _b : Word64) (s : State) : Host.Outcome State Fault Refusal :=
  answer (ctz64Result a) s

/-- The result of `POPCNT64` (R145): `bits_64(popcount(A))`. -/
def popcnt64Result (a : Word64) : Word64 := resultCount (popcount a)

/-- `POPCNT64` (R145): answer with its result; `S` is unchanged. -/
def execPopcnt64 (a _b : Word64) (s : State) : Host.Outcome State Fault Refusal :=
  answer (popcnt64Result a) s

end Sys2Proof.Machine
end

