-- ==== Sys2Proof/Machine/Sext64.lean ====
section
/-! DEFINITION. The SEXT64 group (spec/44_sign_extend.md R180 to R183). -/

namespace Sys2Proof.Machine

/-- The document's method for a field of `M` bits (R180): test bit `M-1`; if it is set, OR in all higher bits; if it is
clear, mask to the field's width. The mask is `2^M - 1` at 64 bits, for `M = 32` too (R183, spec/90_conflicts.md C4). -/
def extendField (M : Nat) (a : Word64) : Word64 :=
  if a.getLsbD (M - 1) then a ||| ~~~(BitVec.ofNat 64 (2 ^ M - 1)) else a &&& BitVec.ofNat 64 (2 ^ M - 1)

/-- The result of `SEXT8.64` (R181): `sext_64(A[7:0])`, by the method of R180. -/
def sext8Result (a : Word64) : Word64 := extendField 8 a

/-- `SEXT8.64` (R181): answer with its result; `S` is unchanged. -/
def execSext8 (a _b : Word64) (s : State) : Host.Outcome State Fault Refusal :=
  answer (sext8Result a) s

/-- The result of `SEXT16.64` (R182): `sext_64(A[15:0])`, by the method of R180. -/
def sext16Result (a : Word64) : Word64 := extendField 16 a

/-- `SEXT16.64` (R182): answer with its result; `S` is unchanged. -/
def execSext16 (a _b : Word64) (s : State) : Host.Outcome State Fault Refusal :=
  answer (sext16Result a) s

/-- The result of `SEXT32.64` (R183): `sext_64(A[31:0])`, by the method of R180. -/
def sext32Result (a : Word64) : Word64 := extendField 32 a

/-- `SEXT32.64` (R183): answer with its result; `S` is unchanged. -/
def execSext32 (a _b : Word64) (s : State) : Host.Outcome State Fault Refusal :=
  answer (sext32Result a) s

end Sys2Proof.Machine
end

