-- ==== Sys2Proof/Machine/Float.lean ====
section
/-! DEFINITION. IEEE-754 decoding and truncation toward zero (spec/00_scope.md R15, R16), and the clamp stage of the
saturating-convert pipeline (spec/43_trunc_sat.md R160). All arithmetic is exact, on Nat and Int. -/

namespace Sys2Proof.Machine

/-- The field widths and the bias of a float format (R15). -/
structure FloatFormat where
  expBits : Nat
  fracBits : Nat
  bias : Nat
  deriving DecidableEq, Repr

/-- binary32 (R15). -/
def binary32 : FloatFormat := ⟨8, 23, 127⟩

/-- binary64 (R15). -/
def binary64 : FloatFormat := ⟨11, 52, 1023⟩

/-- What `fdecode_F` answers (R15). `real sg m x` is the real number `(-1)^sg · m · 2^x`. -/
inductive FloatClass where
  | nan
  | inf (sg : Bool)
  | real (sg : Bool) (m : Nat) (x : Int)
  deriving DecidableEq, Repr

/-- The classification of R15, from the sign bit and the unsigned values of the exponent and fraction fields. -/
def classify (F : FloatFormat) (sg : Bool) (e f : Nat) : FloatClass :=
  if e = 2 ^ F.expBits - 1 then
    if f = 0 then .inf sg else .nan
  else if e = 0 then
    .real sg f (1 - (F.bias : Int) - F.fracBits)
  else
    .real sg (2 ^ F.fracBits + f) ((e : Int) - F.bias - F.fracBits)

/-- `fdecode_F32(v)`: sign bit 31, exponent bits 30:23, fraction bits 22:0 (R15). -/
def fdecode32 (v : Word32) : FloatClass :=
  classify binary32 (v.getLsbD 31) (v.extractLsb' 23 8).toNat (v.extractLsb' 0 23).toNat

/-- `fdecode_F64(v)`: sign bit 63, exponent bits 62:52, fraction bits 51:0 (R15). -/
def fdecode64 (v : Word64) : FloatClass :=
  classify binary64 (v.getLsbD 63) (v.extractLsb' 52 11).toNat (v.extractLsb' 0 52).toNat

/-- `floor(m · 2^x)`. -/
def floorScaled (m : Nat) : Int → Nat
  | .ofNat k => m * 2 ^ k
  | .negSucc k => m / 2 ^ (k + 1)

/-- `trunc` of the real number `(-1)^sg · m · 2^x` (R16): toward zero, so the magnitude is rounded down under either
sign. -/
def truncReal (sg : Bool) (m : Nat) (x : Int) : Int :=
  if sg then -(floorScaled m x : Int) else floorScaled m x

/-- An integer, or one of the two infinities that pass through the truncate stage (R160). -/
inductive ExtInt where
  | negInf
  | int (k : Int)
  | posInf
  deriving DecidableEq, Repr

/-- The clamp stage (R160): `t >= HI` gives `HI`, `t <= LO` gives `LO`, otherwise `t`; the infinities compare above and
below every integer. -/
def clamp (lo hi : Int) : ExtInt → Int
  | .posInf => hi
  | .negInf => lo
  | .int t => if t ≥ hi then hi else if t ≤ lo then lo else t

/-- Stages 2 and 3 of the pipeline (R160), with NaN taken to 0 before them (R161). -/
def saturate (lo hi : Int) : FloatClass → Int
  | .nan => 0
  | .inf true => clamp lo hi .negInf
  | .inf false => clamp lo hi .posInf
  | .real sg m x => clamp lo hi (.int (truncReal sg m x))

end Sys2Proof.Machine
end

