-- ==== Sys2Proof/Machine/Truncsat.lean ====
section
/-! DEFINITION. The TRUNCSAT group (spec/43_trunc_sat.md R160 to R169): decode, truncate, clamp, encode. Each instruction answers
with its result, writes no flag and leaves `S` unchanged. -/

namespace Sys2Proof.Machine

/-- `INT32_MIN` and `INT32_MAX` (glossary): the bounds of `truncSatS32`. -/
def s32Min : Int := -(2 ^ 31)
def s32Max : Int := 2 ^ 31 - 1

/-- `UINT32_MAX` (glossary): the upper bound of `truncSatU32`; the lower is 0. -/
def u32Max : Int := 2 ^ 32 - 1

/-- `INT64_MIN` and `INT64_MAX` (glossary): the bounds of `truncSatS64`. -/
def s64Min : Int := -(2 ^ 63)
def s64Max : Int := 2 ^ 63 - 1

/-- `UINT64_MAX` (glossary): the upper bound of `truncSatU64`; the lower is 0. -/
def u64Max : Int := 2 ^ 64 - 1

/-- `truncSatS32` of a decoded source: pipeline stages 2 to 4 (R160) with the bounds of R162. -/
def truncSatS32 (c : FloatClass) : Word64 := result32 (BitVec.ofInt 32 (saturate s32Min s32Max c))

/-- `truncSatU32` of a decoded source (R160), with the bounds of R164. -/
def truncSatU32 (c : FloatClass) : Word64 := result32 (BitVec.ofInt 32 (saturate 0 u32Max c))

/-- `truncSatS64` of a decoded source (R160), with the bounds of R166. -/
def truncSatS64 (c : FloatClass) : Word64 := BitVec.ofInt 64 (saturate s64Min s64Max c)

/-- `truncSatU64` of a decoded source (R160), with the bounds of R168. -/
def truncSatU64 (c : FloatClass) : Word64 := BitVec.ofInt 64 (saturate 0 u64Max c)

/-- The result of `TRUNCSAT.S32.F32` (R162): `truncSatS32` of the binary32 pattern `A[31:0]`. -/
def truncsatS32F32Result (a : Word64) : Word64 := truncSatS32 (fdecode32 (word32 a))

/-- `TRUNCSAT.S32.F32` (R162): answer with its result; `S` is unchanged. -/
def execTruncsatS32F32 (a _b : Word64) (s : State) : Host.Outcome State Fault Refusal :=
  answer (truncsatS32F32Result a) s

/-- The result of `TRUNCSAT.S32.F64` (R163): `truncSatS32` of the binary64 pattern `A`. -/
def truncsatS32F64Result (a : Word64) : Word64 := truncSatS32 (fdecode64 a)

/-- `TRUNCSAT.S32.F64` (R163): answer with its result; `S` is unchanged. -/
def execTruncsatS32F64 (a _b : Word64) (s : State) : Host.Outcome State Fault Refusal :=
  answer (truncsatS32F64Result a) s

/-- The result of `TRUNCSAT.U32.F32` (R164): `truncSatU32` of the binary32 pattern `A[31:0]`. -/
def truncsatU32F32Result (a : Word64) : Word64 := truncSatU32 (fdecode32 (word32 a))

/-- `TRUNCSAT.U32.F32` (R164): answer with its result; `S` is unchanged. -/
def execTruncsatU32F32 (a _b : Word64) (s : State) : Host.Outcome State Fault Refusal :=
  answer (truncsatU32F32Result a) s

/-- The result of `TRUNCSAT.U32.F64` (R165): `truncSatU32` of the binary64 pattern `A`. -/
def truncsatU32F64Result (a : Word64) : Word64 := truncSatU32 (fdecode64 a)

/-- `TRUNCSAT.U32.F64` (R165): answer with its result; `S` is unchanged. -/
def execTruncsatU32F64 (a _b : Word64) (s : State) : Host.Outcome State Fault Refusal :=
  answer (truncsatU32F64Result a) s

/-- The result of `TRUNCSAT.S64.F32` (R166): `truncSatS64` of the binary32 pattern `A[31:0]`. -/
def truncsatS64F32Result (a : Word64) : Word64 := truncSatS64 (fdecode32 (word32 a))

/-- `TRUNCSAT.S64.F32` (R166): answer with its result; `S` is unchanged. -/
def execTruncsatS64F32 (a _b : Word64) (s : State) : Host.Outcome State Fault Refusal :=
  answer (truncsatS64F32Result a) s

/-- The result of `TRUNCSAT.S64.F64` (R167): `truncSatS64` of the binary64 pattern `A`. -/
def truncsatS64F64Result (a : Word64) : Word64 := truncSatS64 (fdecode64 a)

/-- `TRUNCSAT.S64.F64` (R167): answer with its result; `S` is unchanged. -/
def execTruncsatS64F64 (a _b : Word64) (s : State) : Host.Outcome State Fault Refusal :=
  answer (truncsatS64F64Result a) s

/-- The result of `TRUNCSAT.U64.F32` (R168): `truncSatU64` of the binary32 pattern `A[31:0]`. -/
def truncsatU64F32Result (a : Word64) : Word64 := truncSatU64 (fdecode32 (word32 a))

/-- `TRUNCSAT.U64.F32` (R168): answer with its result; `S` is unchanged. -/
def execTruncsatU64F32 (a _b : Word64) (s : State) : Host.Outcome State Fault Refusal :=
  answer (truncsatU64F32Result a) s

/-- The result of `TRUNCSAT.U64.F64` (R169): `truncSatU64` of the binary64 pattern `A`. -/
def truncsatU64F64Result (a : Word64) : Word64 := truncSatU64 (fdecode64 a)

/-- `TRUNCSAT.U64.F64` (R169): answer with its result; `S` is unchanged. -/
def execTruncsatU64F64 (a _b : Word64) (s : State) : Host.Outcome State Fault Refusal :=
  answer (truncsatU64F64Result a) s

end Sys2Proof.Machine
end

