-- ==== Sys2Proof/Machine/Dispatch.lean ====
section
/-! DEFINITION. The meaning of every instruction, one arm each. -/

namespace Sys2Proof.Machine

def exec (i : Instr) (s : State) : Host.Outcome State Fault Refusal :=
  match i with
  | .rotl32 a b => Sys2Proof.Machine.execRotl32 a b s
  | .rotr32 a b => Sys2Proof.Machine.execRotr32 a b s
  | .clz32 a b => Sys2Proof.Machine.execClz32 a b s
  | .ctz32 a b => Sys2Proof.Machine.execCtz32 a b s
  | .popcnt32 a b => Sys2Proof.Machine.execPopcnt32 a b s
  | .rotl64 a b => Sys2Proof.Machine.execRotl64 a b s
  | .rotr64 a b => Sys2Proof.Machine.execRotr64 a b s
  | .clz64 a b => Sys2Proof.Machine.execClz64 a b s
  | .ctz64 a b => Sys2Proof.Machine.execCtz64 a b s
  | .popcnt64 a b => Sys2Proof.Machine.execPopcnt64 a b s
  | .sext8 a b => Sys2Proof.Machine.execSext8 a b s
  | .sext16 a b => Sys2Proof.Machine.execSext16 a b s
  | .sext32 a b => Sys2Proof.Machine.execSext32 a b s
  | .castI32F32 a b => Sys2Proof.Machine.execCastI32F32 a b s
  | .castF32I32 a b => Sys2Proof.Machine.execCastF32I32 a b s
  | .castI64F64 a b => Sys2Proof.Machine.execCastI64F64 a b s
  | .castF64I64 a b => Sys2Proof.Machine.execCastF64I64 a b s
  | .castS64U64 a b => Sys2Proof.Machine.execCastS64U64 a b s
  | .copysignF32 a b => Sys2Proof.Machine.execCopysignF32 a b s
  | .copysignF64 a b => Sys2Proof.Machine.execCopysignF64 a b s
  | .truncsatS32F32 a b => Sys2Proof.Machine.execTruncsatS32F32 a b s
  | .truncsatS32F64 a b => Sys2Proof.Machine.execTruncsatS32F64 a b s
  | .truncsatU32F32 a b => Sys2Proof.Machine.execTruncsatU32F32 a b s
  | .truncsatU32F64 a b => Sys2Proof.Machine.execTruncsatU32F64 a b s
  | .truncsatS64F32 a b => Sys2Proof.Machine.execTruncsatS64F32 a b s
  | .truncsatS64F64 a b => Sys2Proof.Machine.execTruncsatS64F64 a b s
  | .truncsatU64F32 a b => Sys2Proof.Machine.execTruncsatU64F32 a b s
  | .truncsatU64F64 a b => Sys2Proof.Machine.execTruncsatU64F64 a b s

end Sys2Proof.Machine
end

