-- ==== Sys2Proof/Machine/Step.lean ====
section
/-! DEFINITION. One step of one instance: take the oldest input (spec/20_memory.md R59) and act on it. A command is one
atomic step (R55, R216). -/

namespace Sys2Proof.Machine

/-- One step. `decode` runs first, and a reserved `op` gets the response of R192 whatever the operands are (R193). -/
def step (s : State) : Host.Outcome State Fault Refusal :=
  match fetchInput s with
  | none => idle s
  | some (.reset cut, s') => takeReset cut s'
  | some (.command c, s') =>
    match decode c with
    | .instr i => exec i s'
    | .reserved _ => raiseIllegalOp s'

/-- `s` with the command of a table word presented before everything that waits, so that the very next step takes it.
PWCORE fetches no instruction (R39): a command is presented from outside (R30), and this stands for that. Log entries 3
and 9. -/
def State.withFetchWord (s : State) (nbits w : Nat) : State :=
  s.setInputs (.command (commandOfTableWord nbits w) :: s.inputs)

end Sys2Proof.Machine
end

