-- ==== Sys2Proof/Machine/Assembler.lean ====
section
/-! DEFINITION. The text form of a command (spec/30_encoding.md R84): `MNEMONIC a, b` or `MNEMONIC a`, with 64-bit
hexadecimal literals, labels `tK:` and references `tJ`. Text is a list of characters. Log entry 12 has the conventions R84
leaves open. -/

namespace Sys2Proof.Machine

/-- An operand as written (R84): a literal, or the answer of an earlier line. -/
inductive Operand where
  | lit (v : Word64)
  | answerOf (line : Nat)
  deriving DecidableEq, Repr

/-- A line of a program (R84). An operation written with one operand has the literal 0 for the other, which it
ignores. -/
structure Line where
  label : Option Nat
  op : BitVec 8
  a : Operand
  b : Operand
  deriving DecidableEq, Repr

/-- A row of the mnemonic table: the mnemonic in capitals, its `op`, and whether the operation takes a second operand. -/
structure MnemonicRow where
  name : List Char
  op : BitVec 8
  two : Bool
  deriving DecidableEq, Repr

/-- The mnemonics of the groups INT32 and INT64 (R73, R74). -/
def mnemonicsInt : List MnemonicRow :=
  [⟨"ROTL32".toList, 0x00, true⟩, ⟨"ROTR32".toList, 0x01, true⟩, ⟨"CLZ32".toList, 0x02, false⟩,
   ⟨"CTZ32".toList, 0x03, false⟩, ⟨"POPCNT32".toList, 0x04, false⟩,
   ⟨"ROTL64".toList, 0x20, true⟩, ⟨"ROTR64".toList, 0x21, true⟩, ⟨"CLZ64".toList, 0x22, false⟩,
   ⟨"CTZ64".toList, 0x23, false⟩, ⟨"POPCNT64".toList, 0x24, false⟩]

/-- The mnemonics of the groups SEXT64, BITCAST and FSIGN (R75, R76, R77). -/
def mnemonicsCast : List MnemonicRow :=
  [⟨"SEXT8.64".toList, 0x40, false⟩, ⟨"SEXT16.64".toList, 0x41, false⟩, ⟨"SEXT32.64".toList, 0x42, false⟩,
   ⟨"CAST.I32.F32".toList, 0x60, false⟩, ⟨"CAST.F32.I32".toList, 0x61, false⟩,
   ⟨"CAST.I64.F64".toList, 0x62, false⟩, ⟨"CAST.F64.I64".toList, 0x63, false⟩,
   ⟨"CAST.S64.U64".toList, 0x64, false⟩,
   ⟨"COPYSIGN.F32".toList, 0x80, true⟩, ⟨"COPYSIGN.F64".toList, 0x81, true⟩]

/-- The mnemonics of the group TRUNCSAT (R78). -/
def mnemonicsTruncsat : List MnemonicRow :=
  [⟨"TRUNCSAT.S32.F32".toList, 0xA0, false⟩, ⟨"TRUNCSAT.S32.F64".toList, 0xA1, false⟩,
   ⟨"TRUNCSAT.U32.F32".toList, 0xA2, false⟩, ⟨"TRUNCSAT.U32.F64".toList, 0xA3, false⟩,
   ⟨"TRUNCSAT.S64.F32".toList, 0xA4, false⟩, ⟨"TRUNCSAT.S64.F64".toList, 0xA5, false⟩,
   ⟨"TRUNCSAT.U64.F32".toList, 0xA6, false⟩, ⟨"TRUNCSAT.U64.F64".toList, 0xA7, false⟩]

/-- Every mnemonic; each names exactly one `op` (R85). -/
def mnemonics : List MnemonicRow := mnemonicsInt ++ mnemonicsCast ++ mnemonicsTruncsat

/-- The capital of a letter; mnemonics are case-insensitive (R84). -/
def upperChar (c : Char) : Char :=
  if 97 ≤ c.toNat ∧ c.toNat ≤ 122 then Char.ofNat (c.toNat - 32) else c

/-- The row of a mnemonic. -/
def findMnemonic (name : List Char) : Option MnemonicRow :=
  mnemonics.find? fun r => r.name == name.map upperChar

/-- The value of a decimal digit. -/
def decDigit (c : Char) : Option Nat :=
  if 48 ≤ c.toNat ∧ c.toNat ≤ 57 then some (c.toNat - 48) else none

/-- The value of a hexadecimal digit, of either case. -/
def hexDigit (c : Char) : Option Nat :=
  if 48 ≤ c.toNat ∧ c.toNat ≤ 57 then some (c.toNat - 48)
  else if 65 ≤ c.toNat ∧ c.toNat ≤ 70 then some (c.toNat - 55)
  else if 97 ≤ c.toNat ∧ c.toNat ≤ 102 then some (c.toNat - 87)
  else none

/-- The number whose digits in base `base` are `ds`, the first the highest, after `acc`. -/
def digitsValue (base : Nat) (digit : Char → Option Nat) : Nat → List Char → Option Nat
  | acc, [] => some acc
  | acc, c :: ds => (digit c).bind fun d => digitsValue base digit (acc * base + d) ds

/-- A literal: `0x` followed by 1 to 16 hexadecimal digits, zero-extended to 64 bits (R84). -/
def parseLiteral : List Char → Option Word64
  | '0' :: 'x' :: ds =>
    if 1 ≤ ds.length ∧ ds.length ≤ 16 then (digitsValue 16 hexDigit 0 ds).map (BitVec.ofNat 64) else none
  | _ => none

/-- A reference or label name `tK`, `K` in decimal (R84). -/
def parseLineName : List Char → Option Nat
  | 't' :: d :: ds => digitsValue 10 decDigit 0 (d :: ds)
  | _ => none

/-- An operand (R84). -/
def parseOperand (t : List Char) : Option Operand :=
  match parseLiteral t with
  | some v => some (.lit v)
  | none => (parseLineName t).map .answerOf

/-- `cs` cut into words at spaces, with the comma and the colon each a word of its own; `cur` is the word begun. -/
def tokens (cur : List Char) : List Char → List (List Char)
  | [] => if cur = [] then [] else [cur]
  | c :: cs =>
    let before := if cur = [] then [] else [cur]
    if c = ' ' then before ++ tokens [] cs
    else if c = ',' ∨ c = ':' then before ++ [c] :: tokens [] cs
    else tokens (cur ++ [c]) cs

/-- The command part of a line: `MNEMONIC a, b` for an operation of two operands, `MNEMONIC a` for one of one (R84). -/
def parseCommand (label : Option Nat) : List (List Char) → Option Line
  | [m, a] =>
    (findMnemonic m).bind fun r =>
      if r.two then none else (parseOperand a).map fun x => ⟨label, r.op, x, .lit 0⟩
  | [m, a, [','], b] =>
    (findMnemonic m).bind fun r =>
      if r.two then (parseOperand a).bind fun x => (parseOperand b).map fun y => ⟨label, r.op, x, y⟩ else none
  | _ => none

/-- A line, labelled `tK:` or not (R84). -/
def parseLine (text : List Char) : Option Line :=
  match tokens [] text with
  | name :: [':'] :: rest => (parseLineName name).bind fun k => parseCommand (some k) rest
  | ts => parseCommand none ts

end Sys2Proof.Machine
end

