-- ==== Sys2Proof/Machine/Caller.lean ====
section
/-! DEFINITION. The caller's side of a program (spec/30_encoding.md R84): "Routing results between lines is the caller's
work. The unit only sees the value." -/

namespace Sys2Proof.Machine

/-- What a caller keeps: the `R` answered by each labelled line so far. -/
abbrev Routed := List (Nat × Word64)

/-- The value of an operand: a literal, or the `R` answered by the line it names; the latest if two lines have one label,
a DESIGN CHOICE (log entry 12). -/
def resolve (got : Routed) : Operand → Option Word64
  | .lit v => some v
  | .answerOf k => got.lookup k

/-- The command a line presents. -/
def commandOfLine (got : Routed) (l : Line) : Option Command :=
  (resolve got l.a).bind fun a => (resolve got l.b).map fun b => ⟨l.op, a, b⟩

/-- A caller presents a command, after everything that waits already (R59). -/
def present (c : Command) (s : State) : State := s.setInputs (s.inputs ++ [.command c])

/-- Keeps the `R` of the latest answer under the line's label, unless the answer is `ILLEGAL`: its `R` is no computed value
(spec/93_implementation_defined.md I6). The label then means the line that was not answered with a value, so what an earlier
line of the same label answered is dropped, and a reference to the label has no value: a DESIGN CHOICE, since R84 is
silent on two lines of one label (log entry 12). -/
def route (l : Line) (s : State) (got : Routed) : Routed :=
  match l.label, s.answers.getLast? with
  | some k, some x => if x.illegal then got.filter (fun e => e.1 != k) else (k, x.r) :: got
  | _, _ => got

/-- Runs a program on an idle unit, one line after the other: present the line's command, let the unit answer, route the
answer. `none` where a line names one that has not been answered with a value. The observation of the run (R217) is
`answers`. -/
def runLines : List Line → Routed → State → Option (Host.Outcome State Fault Refusal)
  | [], _, s => some (.next s)
  | l :: ls, got, s =>
    (commandOfLine got l).bind fun c =>
      match step (present c s) with
      | .next s' => runLines ls (route l s' got) s'
      | .fault f => some (.fault f)
      | .refused r => some (.refused r)

end Sys2Proof.Machine
end

