-- ==== Sys2Proof/Machine/System.lean ====
section
/-! DEFINITION. Several instances of PWCORE (spec/60_exceptions.md R201): each has a state of its own, and they share
nothing (spec/10_state.md R37). -/

namespace Sys2Proof.Machine

/-- The states of the instances of a system. -/
abbrev System := List State

/-- A system of `N_INST` instances right after reset (R201: no start-up protocol beyond reset), each with its own draw of
`S`. -/
def System.reset : System := (List.range Config.nInst).map State.resetOf

/-- Instance `k` makes a step; the others do not move. Which instance moves when is the outside's choice: the spec orders
nothing between instances (R59). An instance that stops, or that does not exist, leaves the system as it is. -/
def stepInstance (k : Nat) (sys : System) : System :=
  match sys[k]? with
  | none => sys
  | some s =>
    match step s with
    | .next s' => sys.set k s'
    | .fault _ => sys
    | .refused _ => sys

end Sys2Proof.Machine
end

