-- ==== Sys2Proof/Machine/Stateless.lean ====
section
/-! DEFINITION. The model without `S` that spec/10_state.md R35 allows: `(R, ILLEGAL)` as a function of `(op, A, B)`
alone. It is not what `step` runs; it is what the machine with `S` is compared with. The buffer of a bit reinterpretation is
here "equivalent to wires from `A` to `R`" (R106). -/

namespace Sys2Proof.Machine

/-- The `R` of an instruction, as a function of its operands. -/
def resultOf : Instr → Word64
  | .rotl32 a b => rotl32Result a b
  | .rotr32 a b => rotr32Result a b
  | .clz32 a _ => clz32Result a
  | .ctz32 a _ => ctz32Result a
  | .popcnt32 a _ => popcnt32Result a
  | .rotl64 a b => rotl64Result a b
  | .rotr64 a b => rotr64Result a b
  | .clz64 a _ => clz64Result a
  | .ctz64 a _ => ctz64Result a
  | .popcnt64 a _ => popcnt64Result a
  | .sext8 a _ => sext8Result a
  | .sext16 a _ => sext16Result a
  | .sext32 a _ => sext32Result a
  | .castI32F32 a _ => result32 (word32 a)
  | .castF32I32 a _ => result32 (word32 a)
  | .castI64F64 a _ => a
  | .castF64I64 a _ => a
  | .castS64U64 a _ => a
  | .copysignF32 a b => copysignF32Result a b
  | .copysignF64 a b => copysignF64Result a b
  | .truncsatS32F32 a _ => truncsatS32F32Result a
  | .truncsatS32F64 a _ => truncsatS32F64Result a
  | .truncsatU32F32 a _ => truncsatU32F32Result a
  | .truncsatU32F64 a _ => truncsatU32F64Result a
  | .truncsatS64F32 a _ => truncsatS64F32Result a
  | .truncsatS64F64 a _ => truncsatS64F64Result a
  | .truncsatU64F32 a _ => truncsatU64F32Result a
  | .truncsatU64F64 a _ => truncsatU64F64Result a

/-- The answer to a command, as a function of `(op, A, B)` (R35, R192). -/
def responseTo (c : Command) : Answer :=
  match decode c with
  | .instr i => legalAnswer (resultOf i)
  | .reserved _ => illegalAnswer

end Sys2Proof.Machine
end

