-- ==== Sys2Proof/Safety.lean ====
section
/-! DEFINITION. The terms claims use: the invariant of a state, completing without touching `S`, and the rational value of a float
pattern, written from spec/00_scope.md R15 without the machine's own decoding. -/

namespace Sys2Proof.Machine

/-- The invariant: the scratch buffer's written bytes are in canonical form (R50). -/
def State.Inv (s : State) : Prop := s.scratch.wf

/-- Instruction `i` at `s` completes with the answer `R = r`, `ILLEGAL = 0`, and changes nothing else: not the scratch
buffer, not the waiting inputs, not an earlier answer (R18). -/
def AnswersOnly (i : Instr) (s : State) (r : Word64) : Prop :=
  exec i s = .next { s with answers := s.answers ++ [⟨r, false⟩] }

/-- The real number of a finite pattern with sign bit `sg`, exponent field `e` and fraction field `f`, of the format with
`p` fraction bits and the bias `bias` (R15); meaningless for an all-ones `e`. -/
def ieeeValue (bias p : Nat) (sg : Bool) (e f : Nat) : ℚ :=
  let sign : ℚ := if sg then -1 else 1
  if e = 0 then sign * f * (2 : ℚ) ^ ((1 : ℤ) - bias - p)
  else sign * (2 ^ p + f) * (2 : ℚ) ^ ((e : ℤ) - bias - p)

/-- The real number of a finite binary32 pattern in bits 31 to 0 of `a` (R15). -/
def value32 (a : Word64) : ℚ :=
  ieeeValue 127 23 (a.getLsbD 31) (a.toNat / 2 ^ 23 % 2 ^ 8) (a.toNat % 2 ^ 23)

/-- The real number of a finite binary64 pattern `a` (R15). -/
def value64 (a : Word64) : ℚ :=
  ieeeValue 1023 52 (a.getLsbD 63) (a.toNat / 2 ^ 52 % 2 ^ 11) (a.toNat % 2 ^ 52)

/-- The exponent field of the binary32 pattern in bits 31 to 0 of `a` is all ones (R15). -/
abbrev allOnes32 (a : Word64) : Prop := a.toNat / 2 ^ 23 % 2 ^ 8 = 255

/-- The exponent field of the binary64 pattern `a` is all ones (R15). -/
abbrev allOnes64 (a : Word64) : Prop := a.toNat / 2 ^ 52 % 2 ^ 11 = 2047

/-- The binary32 pattern in bits 31 to 0 of `a` is a NaN (R15). -/
abbrev isNaN32 (a : Word64) : Prop := allOnes32 a ∧ a.toNat % 2 ^ 23 ≠ 0

/-- The binary64 pattern `a` is a NaN (R15). -/
abbrev isNaN64 (a : Word64) : Prop := allOnes64 a ∧ a.toNat % 2 ^ 52 ≠ 0

/-- The binary32 pattern in bits 31 to 0 of `a` is an infinity (R15). -/
abbrev isInf32 (a : Word64) : Prop := allOnes32 a ∧ a.toNat % 2 ^ 23 = 0

/-- The binary64 pattern `a` is an infinity (R15). -/
abbrev isInf64 (a : Word64) : Prop := allOnes64 a ∧ a.toNat % 2 ^ 52 = 0

/-- `trunc(x)`: `floor(x)` for `x >= 0`, `ceil(x)` for `x < 0` (R16). -/
def truncTowardZero (x : ℚ) : ℤ := if 0 ≤ x then ⌊x⌋ else ⌈x⌉

/-- `t` clamped to `lo` and `hi` as R160 words it. -/
def clampInt (lo hi t : ℤ) : ℤ := if t ≥ hi then hi else if t ≤ lo then lo else t

end Sys2Proof.Machine
end

