-- ==== Sys2Proof/Certificates/Slice0/Obligations.lean ====
section
/-! DEFINITION. The statements for the provers. Each docstring says what the statement formalises. -/

open Sys2Proof Sys2Proof.Machine

/-- Decoding and encoding are inverse on every instruction and every legal command. Rests on 30_encoding.md sections 1
and 2 (R70 to R78), 30_encoding.md section 4 (R83). -/
def Obligations.DecodeAndEncodeAgree : Prop :=
  (∀ i : Instr, decode (encode i) = .instr i ∧ (encode i).wf = true) ∧
  (∀ (c : Command) (i : Instr), decode c = .instr i → encode i = c)

/-- Words written out from the encoding tables decode to the instructions they stand for. Rests on 30_encoding.md
section 1 (R72), 30_encoding.md section 2 (R73 to R78), 30_encoding.md section 4 (R80, R83). The operands 0 0 come
from the places of A and B in a table word, which are the model's choice (log entry 9). -/
def Obligations.OpcodeWordsDecodeAsTabled : Prop :=
  decodeTableWord 8 0b00000000 = some (.rotl32 0 0) ∧
  decodeTableWord 8 0b00100100 = some (.popcnt64 0 0) ∧
  decodeTableWord 8 0b01000010 = some (.sext32 0 0) ∧
  decodeTableWord 8 0b01100001 = some (.castF32I32 0 0) ∧
  decodeTableWord 8 0b10000001 = some (.copysignF64 0 0) ∧
  decodeTableWord 8 0b10100110 = some (.truncsatU64F32 0 0) ∧
  decodeTableWord 8 0b10101000 = none ∧
  decodeTableWord 8 0b11000000 = none

/-- The 28 codes of the opcode map decode to their operations and every other code is reserved. Formalises R73, R74,
R75, R76, R77, R78, R83. -/
def Obligations.OpcodeMapIsExactlyTheTables : Prop :=
  (∀ a b : Word64,
    decode ⟨0x00, a, b⟩ = .instr (.rotl32 a b) ∧
    decode ⟨0x01, a, b⟩ = .instr (.rotr32 a b) ∧
    decode ⟨0x02, a, b⟩ = .instr (.clz32 a b) ∧
    decode ⟨0x03, a, b⟩ = .instr (.ctz32 a b) ∧
    decode ⟨0x04, a, b⟩ = .instr (.popcnt32 a b) ∧
    decode ⟨0x20, a, b⟩ = .instr (.rotl64 a b) ∧
    decode ⟨0x21, a, b⟩ = .instr (.rotr64 a b) ∧
    decode ⟨0x22, a, b⟩ = .instr (.clz64 a b) ∧
    decode ⟨0x23, a, b⟩ = .instr (.ctz64 a b) ∧
    decode ⟨0x24, a, b⟩ = .instr (.popcnt64 a b) ∧
    decode ⟨0x40, a, b⟩ = .instr (.sext8 a b) ∧
    decode ⟨0x41, a, b⟩ = .instr (.sext16 a b) ∧
    decode ⟨0x42, a, b⟩ = .instr (.sext32 a b) ∧
    decode ⟨0x60, a, b⟩ = .instr (.castI32F32 a b) ∧
    decode ⟨0x61, a, b⟩ = .instr (.castF32I32 a b) ∧
    decode ⟨0x62, a, b⟩ = .instr (.castI64F64 a b) ∧
    decode ⟨0x63, a, b⟩ = .instr (.castF64I64 a b) ∧
    decode ⟨0x64, a, b⟩ = .instr (.castS64U64 a b) ∧
    decode ⟨0x80, a, b⟩ = .instr (.copysignF32 a b) ∧
    decode ⟨0x81, a, b⟩ = .instr (.copysignF64 a b) ∧
    decode ⟨0xA0, a, b⟩ = .instr (.truncsatS32F32 a b) ∧
    decode ⟨0xA1, a, b⟩ = .instr (.truncsatS32F64 a b) ∧
    decode ⟨0xA2, a, b⟩ = .instr (.truncsatU32F32 a b) ∧
    decode ⟨0xA3, a, b⟩ = .instr (.truncsatU32F64 a b) ∧
    decode ⟨0xA4, a, b⟩ = .instr (.truncsatS64F32 a b) ∧
    decode ⟨0xA5, a, b⟩ = .instr (.truncsatS64F64 a b) ∧
    decode ⟨0xA6, a, b⟩ = .instr (.truncsatU64F32 a b) ∧
    decode ⟨0xA7, a, b⟩ = .instr (.truncsatU64F64 a b)) ∧
  (∀ (op : BitVec 8) (a b : Word64),
    ((0x05 ≤ op.toNat ∧ op.toNat ≤ 0x1F) ∨ (0x25 ≤ op.toNat ∧ op.toNat ≤ 0x3F) ∨
      (0x43 ≤ op.toNat ∧ op.toNat ≤ 0x5F) ∨ (0x65 ≤ op.toNat ∧ op.toNat ≤ 0x7F) ∨
      (0x82 ≤ op.toNat ∧ op.toNat ≤ 0x9F) ∨ (0xA8 ≤ op.toNat ∧ op.toNat ≤ 0xFF)) →
    ∃ why, decode ⟨op, a, b⟩ = .reserved why)

/-- Every mnemonic names exactly one op, the one its table gives it, and every operation has one mnemonic. Formalises
R85. -/
def Obligations.EveryMnemonicNamesOneOp : Prop :=
  (∀ r ∈ mnemonics, ∀ r' ∈ mnemonics, r'.name = r.name ∨ r'.op = r.op → r' = r) ∧
  (∀ r ∈ mnemonics, ∀ a b : Word64, ∃ i : Instr, decode ⟨r.op, a, b⟩ = .instr i) ∧
  (∀ i : Instr, ∃ r ∈ mnemonics, r.op = opcode i) ∧
  (findMnemonic "ROTL32".toList).map (·.op) = some 0x00 ∧
  (findMnemonic "ROTR32".toList).map (·.op) = some 0x01 ∧
  (findMnemonic "CLZ32".toList).map (·.op) = some 0x02 ∧
  (findMnemonic "CTZ32".toList).map (·.op) = some 0x03 ∧
  (findMnemonic "POPCNT32".toList).map (·.op) = some 0x04 ∧
  (findMnemonic "ROTL64".toList).map (·.op) = some 0x20 ∧
  (findMnemonic "ROTR64".toList).map (·.op) = some 0x21 ∧
  (findMnemonic "CLZ64".toList).map (·.op) = some 0x22 ∧
  (findMnemonic "CTZ64".toList).map (·.op) = some 0x23 ∧
  (findMnemonic "POPCNT64".toList).map (·.op) = some 0x24 ∧
  (findMnemonic "SEXT8.64".toList).map (·.op) = some 0x40 ∧
  (findMnemonic "SEXT16.64".toList).map (·.op) = some 0x41 ∧
  (findMnemonic "SEXT32.64".toList).map (·.op) = some 0x42 ∧
  (findMnemonic "CAST.I32.F32".toList).map (·.op) = some 0x60 ∧
  (findMnemonic "CAST.F32.I32".toList).map (·.op) = some 0x61 ∧
  (findMnemonic "CAST.I64.F64".toList).map (·.op) = some 0x62 ∧
  (findMnemonic "CAST.F64.I64".toList).map (·.op) = some 0x63 ∧
  (findMnemonic "CAST.S64.U64".toList).map (·.op) = some 0x64 ∧
  (findMnemonic "COPYSIGN.F32".toList).map (·.op) = some 0x80 ∧
  (findMnemonic "COPYSIGN.F64".toList).map (·.op) = some 0x81 ∧
  (findMnemonic "TRUNCSAT.S32.F32".toList).map (·.op) = some 0xA0 ∧
  (findMnemonic "TRUNCSAT.S32.F64".toList).map (·.op) = some 0xA1 ∧
  (findMnemonic "TRUNCSAT.U32.F32".toList).map (·.op) = some 0xA2 ∧
  (findMnemonic "TRUNCSAT.U32.F64".toList).map (·.op) = some 0xA3 ∧
  (findMnemonic "TRUNCSAT.S64.F32".toList).map (·.op) = some 0xA4 ∧
  (findMnemonic "TRUNCSAT.S64.F64".toList).map (·.op) = some 0xA5 ∧
  (findMnemonic "TRUNCSAT.U64.F32".toList).map (·.op) = some 0xA6 ∧
  (findMnemonic "TRUNCSAT.U64.F64".toList).map (·.op) = some 0xA7

/-- A literal of 1 to 16 hexadecimal digits reads as its value, and no other digit count is a literal. Rests on
30_encoding.md section 5 (R84). That a digit may be a small letter or a capital is the model's choice (log entry 12).
-/
def Obligations.LiteralIsItsHexadecimalValue : Prop :=
  ∀ (ds : List Nat) (cs : List Char), (∀ d ∈ ds, d < 16) →
    List.Forall₂ (fun d c => c = Nat.digitChar d ∨ c = (Nat.digitChar d).toUpper) ds cs →
    ((1 ≤ ds.length ∧ ds.length ≤ 16 →
      parseLiteral ('0' :: 'x' :: cs) = some (BitVec.ofNat 64 (Nat.ofDigits 16 ds.reverse))) ∧
    (ds.length = 0 ∨ 16 < ds.length → parseLiteral ('0' :: 'x' :: cs) = none))

/-- After reset S is unspecified, the unit is idle, and the first command behaves as any later one. Rests on
10_state.md section 2 (R35, R36), 70_reset_and_hazards.md section 1 (R210). The fields `inputs` and `answers` that say
idle are the model's (log entries 3 and 4). -/
def Obligations.ResetLeavesTheUnitIdle : Prop :=
  (∀ off, scratchByte State.reset off = Config.scratchAtReset State.reset.unit State.reset.resets off) ∧
  State.reset.inputs = [] ∧ step State.reset = .next State.reset ∧
  (∀ (c : Command) (s : State) (rest : List Input), s.inputs = .command c :: rest →
    ∃ x t t', step (present c State.reset) = .next t ∧ t.answers = State.reset.answers ++ [x] ∧
      step s = .next t' ∧ t'.answers = s.answers ++ [x])

/-- With no command presented a step changes nothing. Rests on 20_memory.md section 4 (R57), 70_reset_and_hazards.md
section 1 (R210). -/
def Obligations.IdleUnitDoesNotMove : Prop :=
  ∀ s : State, s.inputs = [] → step s = .next s

/-- A step takes the oldest command and runs the instruction it decodes to. Rests on 20_memory.md section 5 (R59),
60_exceptions.md section 1 (R193). The list of waiting inputs, and in the second clause that a table word is put
before all that waits and how its bits are laid out, are the model's choice (log entries 3 and 9). -/
def Obligations.StepRunsTheDecodedCommand : Prop :=
  (∀ (s : State) (c : Command) (rest : List Input) (i : Instr),
    s.inputs = .command c :: rest → decode c = .instr i → step s = exec i { s with inputs := rest }) ∧
  (∀ (s : State) (nbits w : Nat) (i : Instr), decodeTableWord nbits w = some i →
    step (s.withFetchWord nbits w) = exec i s)

/-- A reserved op is answered with ILLEGAL = 1 and R = 0, whatever the operands, and nothing else changes. Formalises
R80, R192. -/
def Obligations.ReservedOpIsAnsweredIllegal : Prop :=
  ∀ (s : State) (op : BitVec 8) (a b : Word64) (rest : List Input),
    s.inputs = .command ⟨op, a, b⟩ :: rest →
    ((0x05 ≤ op.toNat ∧ op.toNat ≤ 0x1F) ∨ (0x25 ≤ op.toNat ∧ op.toNat ≤ 0x3F) ∨
      (0x43 ≤ op.toNat ∧ op.toNat ≤ 0x5F) ∨ (0x65 ≤ op.toNat ∧ op.toNat ≤ 0x7F) ∨
      (0x82 ≤ op.toNat ∧ op.toNat ≤ 0x9F) ∨ (0xA8 ≤ op.toNat ∧ op.toNat ≤ 0xBF) ∨
      (0xC0 ≤ op.toNat ∧ op.toNat ≤ 0xFF)) →
    ∃ t, step s = .next t ∧ t = { s with inputs := rest, answers := s.answers ++ [⟨0, true⟩] } ∧
      (∀ i : Instr, ∃ x u u', exec i t = .next u ∧ exec i { s with inputs := rest } = .next u' ∧
        u.answers = s.answers ++ [⟨0, true⟩, x] ∧ u'.answers = s.answers ++ [x] ∧ u.scratch = u'.scratch)

/-- A reset gives no answer to the command it cuts and leaves S unspecified. Rests on 10_state.md section 2 (R36),
70_reset_and_hazards.md section 1 (R210, R211). That a reset is one input after which the earlier answers stay (log
entry 6), and that each reset is counted, to draw S anew (log entry 2), are the model's choice. -/
def Obligations.ResetInputCutsTheCommand : Prop :=
  ∀ (s : State) (cut : Option Command) (rest : List Input), s.inputs = .reset cut :: rest →
    ∃ t, step s = .next t ∧ t.answers = s.answers ∧ s.resets < t.resets ∧
      ∀ off, scratchByte t off = Config.scratchAtReset t.unit t.resets off

/-- Every step of every state answers a next state. Rests on 60_exceptions.md section 1 (R190, R192), 20_memory.md
section 4 (R57), 70_reset_and_hazards.md section 1 (R210, R211), 70_reset_and_hazards.md section 3 (R216). That a step
with nothing waiting is idle (log entry 3) and that a reset is one input and one step (log entry 6) are the model's
choice. -/
def Obligations.NoStepEverStops : Prop :=
  ∀ s : State, ∃ t, step s = .next t

/-- A step that takes a command adds exactly one answer, and any other step adds none. Rests on 20_memory.md section 3
(R55), 20_memory.md section 4 (R57), 70_reset_and_hazards.md section 1 (R210, R211), 70_reset_and_hazards.md section 3
(R216, R217). The list of waiting inputs and the log of answers (log entries 3 and 4), and that the earlier answers
and the later inputs survive a reset (log entry 6), are the model's choice. -/
def Obligations.EachCommandIsAnsweredOnce : Prop :=
  ∀ s : State, ∃ t, step s = .next t ∧ t.inputs = s.inputs.tail ∧
    (∀ c rest, s.inputs = .command c :: rest → ∃ x, t.answers = s.answers ++ [x]) ∧
    ((∀ c rest, s.inputs ≠ .command c :: rest) → t.answers = s.answers)

/-- Every legal op, on every operand, is answered with ILLEGAL = 0, and only a legal op is. Rests on 60_exceptions.md
section 1 (R190, R192, R193). -/
def Obligations.LegalOpsNeverRaiseIllegal : Prop :=
  ∀ (s : State) (op : BitVec 8) (a b : Word64) (rest : List Input), s.inputs = .command ⟨op, a, b⟩ :: rest →
    ∃ t x, step s = .next t ∧ t.answers = s.answers ++ [x] ∧
      (x.illegal = false ↔ op.toNat ∈ [0x00, 0x01, 0x02, 0x03, 0x04, 0x20, 0x21, 0x22, 0x23, 0x24, 0x40, 0x41, 0x42, 0x60,
        0x61, 0x62, 0x63, 0x64, 0x80, 0x81, 0xA0, 0xA1, 0xA2, 0xA3, 0xA4, 0xA5, 0xA6, 0xA7])

/-- R and ILLEGAL are functions of op, A and B alone, and the model without S gives them exactly. Formalises R35. -/
def Obligations.AnswerIsAFunctionOfTheCommand : Prop :=
  ∀ (c : Command) (s s' : State) (rest rest' : List Input),
    s.inputs = .command c :: rest → s'.inputs = .command c :: rest' →
    ∃ t t', step s = .next t ∧ step s' = .next t' ∧
      t.answers = s.answers ++ [responseTo c] ∧ t'.answers = s'.answers ++ [responseTo c]

/-- A bit of A or B that an operation does not name changes nothing of the step. Formalises R79. -/
def Obligations.IgnoredOperandBitsHaveNoEffect : Prop :=
  ∀ (s : State) (op : BitVec 8) (a b a' b' : Word64) (rest : List Input),
    (op.toNat ∈ [0x00, 0x01] ∧ a.toNat % 2 ^ 32 = a'.toNat % 2 ^ 32 ∧ b.toNat % 32 = b'.toNat % 32) ∨
    (op.toNat ∈ [0x02, 0x03, 0x04, 0x42, 0x60, 0x61, 0xA0, 0xA2, 0xA4, 0xA6] ∧
      a.toNat % 2 ^ 32 = a'.toNat % 2 ^ 32) ∨
    (op.toNat ∈ [0x20, 0x21] ∧ a = a' ∧ b.toNat % 64 = b'.toNat % 64) ∨
    (op.toNat ∈ [0x22, 0x23, 0x24, 0x62, 0x63, 0x64, 0xA1, 0xA3, 0xA5, 0xA7] ∧ a = a') ∨
    (op.toNat = 0x40 ∧ a.toNat % 2 ^ 8 = a'.toNat % 2 ^ 8) ∨
    (op.toNat = 0x41 ∧ a.toNat % 2 ^ 16 = a'.toNat % 2 ^ 16) ∨
    (op.toNat = 0x80 ∧ a.toNat % 2 ^ 32 = a'.toNat % 2 ^ 32 ∧ b.toNat % 2 ^ 32 = b'.toNat % 2 ^ 32) →
    step { s with inputs := .command ⟨op, a, b⟩ :: rest } = step { s with inputs := .command ⟨op, a', b'⟩ :: rest }

/-- The five bit reinterpretations each write one lane of S; every other command leaves S unchanged. Formalises R34.
-/
def Obligations.OnlyBitcastsWriteScratch : Prop :=
  ∀ (s : State) (op : BitVec 8) (a b : Word64) (rest : List Input), s.inputs = .command ⟨op, a, b⟩ :: rest →
    ∃ t, step s = .next t ∧ t.unit = s.unit ∧ t.resets = s.resets ∧
      (op.toNat = 0x60 ∨ op.toNat = 0x61 →
        ∀ k, scratchByte t k = if k < 4 then a.extractLsb' (8 * k) 8 else scratchByte s k) ∧
      (op.toNat = 0x62 ∨ op.toNat = 0x63 ∨ op.toNat = 0x64 →
        ∀ k, scratchByte t k = if k < 8 then a.extractLsb' (8 * k) 8 else scratchByte s k) ∧
      (op.toNat < 0x60 ∨ 0x64 < op.toNat → t.scratch = s.scratch)

/-- The scratch buffer is in canonical form at reset. Rests on 10_state.md section 2 (R32), 20_memory.md section 1
(R50). The canonical form, offsets strictly rising, is the model's choice (log entry 1); the spec gives the offsets 0
to 7. -/
def Obligations.ResetHasTheInvariant : Prop :=
  State.Inv State.reset ∧ ∀ k, State.Inv (State.resetOf k)

/-- Every step keeps the scratch buffer in canonical form. Rests on 10_state.md section 2 (R32, R33), 20_memory.md
section 1 (R50). The canonical form, offsets strictly rising, is the model's choice (log entry 1); the spec gives the
offsets 0 to 7. -/
def Obligations.EveryStepKeepsTheInvariant : Prop :=
  (∀ s t : State, s.Inv → step s = .next t → t.Inv) ∧
  (∀ (i : Instr) (s t : State), s.Inv → exec i s = .next t → t.Inv)

/-- A run of any finite list of commands answers each in order, as the model without S says. Rests on 10_state.md
section 2 (R35), 20_memory.md section 5 (R59), 70_reset_and_hazards.md section 3 (R216, R217). -/
def Obligations.RunAnswersEveryCommandInOrder : Prop :=
  ∀ (cs : List Command) (s : State) (rest : List Input), s.inputs = cs.map .command ++ rest →
    ∃ t : State, Sys2Proof.core.run cs.length s = .next t ∧ t.answers = s.answers ++ cs.map responseTo ∧
      t.inputs = rest ∧ t.unit = s.unit ∧ t.resets = s.resets

/-- MemWrite sets its bytes little-endian and no other, and MemRead gives them back; no other address exists.
Formalises R17. -/
def Obligations.ScratchReadsBackWhatWasWritten : Prop :=
  ∀ (off n : Nat) (v : Word64) (s : State),
    (off + n ≤ 8 →
      (∃ t, memWrite off n v s = .ok t ∧ t.inputs = s.inputs ∧ t.answers = s.answers ∧ t.unit = s.unit ∧
        t.resets = s.resets ∧
        (∀ i < n, scratchByte t (off + i) = v.extractLsb' (8 * i) 8) ∧
        (∀ k, k < off ∨ off + n ≤ k → scratchByte t k = scratchByte s k) ∧
        memRead off n t = .ok (BitVec.ofNat 64 (v.toNat % 2 ^ (8 * n)))) ∧
      (∃ x, memRead off n s = .ok x ∧ (∀ i < n, x.extractLsb' (8 * i) 8 = scratchByte s (off + i)) ∧
        x.toNat < 2 ^ (8 * n))) ∧
    (8 < off + n →
      (∀ t, memWrite off n v s ≠ .ok t) ∧ (∀ x, memRead off n s ≠ .ok x))

/-- A step of one instance leaves every other as it is, and steps of two instances commute. Formalises R37. -/
def Obligations.InstancesShareNothing : Prop :=
  (∀ (k : Nat) (sys : System), (stepInstance k sys).length = sys.length ∧
    (∀ j, j ≠ k → (stepInstance k sys)[j]? = sys[j]?) ∧
    (∀ s, sys[k]? = some s → ∃ t, step s = .next t ∧ (stepInstance k sys)[k]? = some t)) ∧
  (∀ (j k : Nat) (sys : System), j ≠ k →
    stepInstance j (stepInstance k sys) = stepInstance k (stepInstance j sys))

/-- A system after reset holds N_INST instances, at least one, each idle and with its own free draw of S. Rests on
60_exceptions.md section 5 (R201), 00_scope.md section 3 (R9), 92_eei_decisions.md Parameters left OPEN (N_INST: at
least 1), 10_state.md section 2 (R36, R37), 20_memory.md section 4 (R57), 70_reset_and_hazards.md section 1 (R210).
That an instance has a number (log entry 2), the list of waiting inputs and the idle step (log entry 3), the log of
answers (log entry 4), and a system as a list of states with a number of instances that nothing can see (log entry 8)
are the model's choice. -/
def Obligations.SystemResetHoldsEveryInstance : Prop :=
  System.reset.length = Config.nInst ∧ 1 ≤ Config.nInst ∧
    ∀ k < Config.nInst, ∃ s, System.reset[k]? = some s ∧ s.unit = k ∧ s.inputs = [] ∧ s.answers = [] ∧
      step s = .next s ∧
      ∀ off, scratchByte s off = Config.scratchAtReset k s.resets off

/-- ROTL32 rotates A[31:0] left by B[4:0]. Formalises R124. -/
def Obligations.Rotl32RotatesByTheMaskedAmount : Prop :=
  ∀ (s : State) (a b : Word64), decode ⟨0x00, a, b⟩ = .instr (.rotl32 a b) ∧
    let n := b.toNat % 32
    let x : BitVec 32 := a.setWidth 32
    ∃ r, AnswersOnly (.rotl32 a b) s r ∧ r = ((x <<< n) ||| (x >>> (32 - n))).setWidth 64 ∧
      (∀ i < 32, r.getLsbD ((i + n) % 32) = a.getLsbD i)

/-- ROTR32 rotates A[31:0] right by B[4:0], and undoes ROTL32. Formalises R125. -/
def Obligations.Rotr32RotatesByTheMaskedAmount : Prop :=
  ∀ (s : State) (a b : Word64), decode ⟨0x01, a, b⟩ = .instr (.rotr32 a b) ∧
    let n := b.toNat % 32
    let x : BitVec 32 := a.setWidth 32
    ∃ r, AnswersOnly (.rotr32 a b) s r ∧ r = ((x >>> n) ||| (x <<< (32 - n))).setWidth 64 ∧
      (∀ i < 32, r.getLsbD i = a.getLsbD ((i + n) % 32)) ∧
      r = ((x <<< ((32 - n) % 32)) ||| (x >>> (32 - (32 - n) % 32))).setWidth 64 ∧
      (∀ s' : State, AnswersOnly (.rotl32 r b) s' (x.setWidth 64)) ∧
      (∀ s' q, AnswersOnly (.rotl32 a b) s' q → AnswersOnly (.rotr32 q b) s' (x.setWidth 64))

/-- CLZ32 counts the leading zeros of A[31:0]. Formalises R127. -/
def Obligations.Clz32CountsLeadingZeros : Prop :=
  ∀ (s : State) (a b : Word64), decode ⟨0x02, a, b⟩ = .instr (.clz32 a b) ∧
    ∃ c : Nat, AnswersOnly (.clz32 a b) s (BitVec.ofNat 64 c) ∧
      c ≤ 32 ∧ (∀ i < 32, 32 - c ≤ i → a.getLsbD i = false) ∧ (c < 32 → a.getLsbD (31 - c) = true)

/-- CTZ32 counts the trailing zeros of A[31:0]. Formalises R126. -/
def Obligations.Ctz32CountsTrailingZeros : Prop :=
  ∀ (s : State) (a b : Word64), decode ⟨0x03, a, b⟩ = .instr (.ctz32 a b) ∧
    ∃ c : Nat, AnswersOnly (.ctz32 a b) s (BitVec.ofNat 64 c) ∧
      c ≤ 32 ∧ (∀ i < c, a.getLsbD i = false) ∧ (c < 32 → a.getLsbD c = true)

/-- POPCNT32 counts the set bits of A[31:0]. Formalises R128. -/
def Obligations.Popcnt32CountsTheOnes : Prop :=
  ∀ (s : State) (a b : Word64), decode ⟨0x04, a, b⟩ = .instr (.popcnt32 a b) ∧
    AnswersOnly (.popcnt32 a b) s
      (BitVec.ofNat 64 ((Finset.range 32).filter fun i => a.getLsbD i = true).card)

/-- ROTL64 rotates A left by B[5:0]. Formalises R141. -/
def Obligations.Rotl64RotatesByTheMaskedAmount : Prop :=
  ∀ (s : State) (a b : Word64), decode ⟨0x20, a, b⟩ = .instr (.rotl64 a b) ∧
    let n := b.toNat % 64
    let x : BitVec 64 := a
    ∃ r, AnswersOnly (.rotl64 a b) s r ∧ r = ((x <<< n) ||| (x >>> (64 - n))) ∧
      (∀ i < 64, r.getLsbD ((i + n) % 64) = a.getLsbD i)

/-- ROTR64 rotates A right by B[5:0], and undoes ROTL64. Formalises R142. -/
def Obligations.Rotr64RotatesByTheMaskedAmount : Prop :=
  ∀ (s : State) (a b : Word64), decode ⟨0x21, a, b⟩ = .instr (.rotr64 a b) ∧
    let n := b.toNat % 64
    let x : BitVec 64 := a
    ∃ r, AnswersOnly (.rotr64 a b) s r ∧ r = ((x >>> n) ||| (x <<< (64 - n))) ∧
      (∀ i < 64, r.getLsbD i = a.getLsbD ((i + n) % 64)) ∧
      r = ((x <<< ((64 - n) % 64)) ||| (x >>> (64 - (64 - n) % 64))) ∧
      (∀ s' : State, AnswersOnly (.rotl64 r b) s' (x)) ∧
      (∀ s' q, AnswersOnly (.rotl64 a b) s' q → AnswersOnly (.rotr64 q b) s' (x))

/-- CLZ64 counts leading zeros by halves, and that is the count over 64 bits. Formalises R143. -/
def Obligations.Clz64CountsByHalves : Prop :=
  ∀ (s : State) (a b : Word64), decode ⟨0x22, a, b⟩ = .instr (.clz64 a b) ∧
    ∃ c h l : Nat, AnswersOnly (.clz64 a b) s (BitVec.ofNat 64 c) ∧
      AnswersOnly (.clz32 (a >>> 32) b) s (BitVec.ofNat 64 h) ∧ AnswersOnly (.clz32 a b) s (BitVec.ofNat 64 l) ∧
      h ≤ 32 ∧ l ≤ 32 ∧ c = (if a.toNat / 2 ^ 32 = 0 then h + l else h) ∧
      c ≤ 64 ∧ (∀ i < 64, 64 - c ≤ i → a.getLsbD i = false) ∧ (c < 64 → a.getLsbD (63 - c) = true)

/-- CTZ64 counts trailing zeros by halves, and that is the count over 64 bits. Formalises R144. -/
def Obligations.Ctz64CountsByHalves : Prop :=
  ∀ (s : State) (a b : Word64), decode ⟨0x23, a, b⟩ = .instr (.ctz64 a b) ∧
    ∃ c h l : Nat, AnswersOnly (.ctz64 a b) s (BitVec.ofNat 64 c) ∧
      AnswersOnly (.ctz32 (a >>> 32) b) s (BitVec.ofNat 64 h) ∧ AnswersOnly (.ctz32 a b) s (BitVec.ofNat 64 l) ∧
      h ≤ 32 ∧ l ≤ 32 ∧ c = (if a.toNat % 2 ^ 32 = 0 then l + h else l) ∧
      c ≤ 64 ∧ (∀ i < c, a.getLsbD i = false) ∧ (c < 64 → a.getLsbD c = true)

/-- POPCNT64 counts the set bits of A. Formalises R145. -/
def Obligations.Popcnt64CountsTheOnes : Prop :=
  ∀ (s : State) (a b : Word64), decode ⟨0x24, a, b⟩ = .instr (.popcnt64 a b) ∧
    AnswersOnly (.popcnt64 a b) s
      (BitVec.ofNat 64 ((Finset.range 64).filter fun i => a.getLsbD i = true).card)

/-- SEXT8.64 sign-extends A[7:0] to 64 bits, by the method of the document. Formalises R181. -/
def Obligations.Sext8SignExtendsItsField : Prop :=
  ∀ (s : State) (a b : Word64), decode ⟨0x40, a, b⟩ = .instr (.sext8 a b) ∧
    ∃ r, AnswersOnly (.sext8 a b) s r ∧
      (∀ i < 64, r.getLsbD i = if i < 8 then a.getLsbD i else a.getLsbD 7) ∧
      r.toInt = (a.setWidth 8).toInt ∧
      r = if a.getLsbD 7 then a ||| ~~~0xFF else a &&& 0xFF

/-- SEXT16.64 sign-extends A[15:0] to 64 bits, by the method of the document. Formalises R182. -/
def Obligations.Sext16SignExtendsItsField : Prop :=
  ∀ (s : State) (a b : Word64), decode ⟨0x41, a, b⟩ = .instr (.sext16 a b) ∧
    ∃ r, AnswersOnly (.sext16 a b) s r ∧
      (∀ i < 64, r.getLsbD i = if i < 16 then a.getLsbD i else a.getLsbD 15) ∧
      r.toInt = (a.setWidth 16).toInt ∧
      r = if a.getLsbD 15 then a ||| ~~~0xFFFF else a &&& 0xFFFF

/-- SEXT32.64 sign-extends A[31:0] to 64 bits, by the method of the document. Formalises R183. -/
def Obligations.Sext32SignExtendsItsField : Prop :=
  ∀ (s : State) (a b : Word64), decode ⟨0x42, a, b⟩ = .instr (.sext32 a b) ∧
    ∃ r, AnswersOnly (.sext32 a b) s r ∧
      (∀ i < 64, r.getLsbD i = if i < 32 then a.getLsbD i else a.getLsbD 31) ∧
      r.toInt = (a.setWidth 32).toInt ∧
      r = if a.getLsbD 31 then a ||| ~~~0xFFFFFFFF else a &&& 0xFFFFFFFF

/-- CAST.I32.F32 answers with the bits of A unchanged, writing them to S[0..3] alone. Formalises R100. -/
def Obligations.CastI32F32KeepsThePattern : Prop :=
  ∀ (s : State) (a b : Word64), decode ⟨0x60, a, b⟩ = .instr (.castI32F32 a b) ∧
    ∃ t r, exec (.castI32F32 a b) s = .next t ∧ t.answers = s.answers ++ [⟨r, false⟩] ∧
      r = (a.setWidth 32).setWidth 64 ∧
      laneInteger .i32 r = some (a.setWidth 32).toInt ∧
      (∀ k < 4, scratchByte t k = a.extractLsb' (8 * k) 8) ∧
      (∀ k, 4 ≤ k → scratchByte t k = scratchByte s k) ∧
      t.inputs = s.inputs ∧ t.unit = s.unit ∧ t.resets = s.resets

/-- CAST.F32.I32 answers with the bits of A unchanged, writing them to S[0..3] alone. Formalises R101. -/
def Obligations.CastF32I32KeepsThePattern : Prop :=
  ∀ (s : State) (a b : Word64), decode ⟨0x61, a, b⟩ = .instr (.castF32I32 a b) ∧
    ∃ t r, exec (.castF32I32 a b) s = .next t ∧ t.answers = s.answers ++ [⟨r, false⟩] ∧
      r = (a.setWidth 32).setWidth 64 ∧
      (∀ k < 4, scratchByte t k = a.extractLsb' (8 * k) 8) ∧
      (∀ k, 4 ≤ k → scratchByte t k = scratchByte s k) ∧
      t.inputs = s.inputs ∧ t.unit = s.unit ∧ t.resets = s.resets

/-- CAST.I64.F64 answers with the bits of A unchanged, writing them to S[0..7] alone. Formalises R102. -/
def Obligations.CastI64F64KeepsThePattern : Prop :=
  ∀ (s : State) (a b : Word64), decode ⟨0x62, a, b⟩ = .instr (.castI64F64 a b) ∧
    ∃ t r, exec (.castI64F64 a b) s = .next t ∧ t.answers = s.answers ++ [⟨r, false⟩] ∧
      r = a ∧
      laneInteger .u64 r = some (a.toNat : Int) ∧
      (∀ k < 8, scratchByte t k = a.extractLsb' (8 * k) 8) ∧
      (∀ k, 8 ≤ k → scratchByte t k = scratchByte s k) ∧
      t.inputs = s.inputs ∧ t.unit = s.unit ∧ t.resets = s.resets

/-- CAST.F64.I64 answers with the bits of A unchanged, writing them to S[0..7] alone. Formalises R103. -/
def Obligations.CastF64I64KeepsThePattern : Prop :=
  ∀ (s : State) (a b : Word64), decode ⟨0x63, a, b⟩ = .instr (.castF64I64 a b) ∧
    ∃ t r, exec (.castF64I64 a b) s = .next t ∧ t.answers = s.answers ++ [⟨r, false⟩] ∧
      r = a ∧
      (∀ k < 8, scratchByte t k = a.extractLsb' (8 * k) 8) ∧
      (∀ k, 8 ≤ k → scratchByte t k = scratchByte s k) ∧
      t.inputs = s.inputs ∧ t.unit = s.unit ∧ t.resets = s.resets

/-- CAST.S64.U64 answers with the bits of A unchanged, writing them to S[0..7] alone. Formalises R104. -/
def Obligations.CastS64U64KeepsThePattern : Prop :=
  ∀ (s : State) (a b : Word64), decode ⟨0x64, a, b⟩ = .instr (.castS64U64 a b) ∧
    ∃ t r, exec (.castS64U64 a b) s = .next t ∧ t.answers = s.answers ++ [⟨r, false⟩] ∧
      r = a ∧
      laneInteger .i64 r = some (if a.toNat < 2 ^ 63 then (a.toNat : Int) else a.toNat - 2 ^ 64) ∧
      (∀ k < 8, scratchByte t k = a.extractLsb' (8 * k) 8) ∧
      (∀ k, 8 ≤ k → scratchByte t k = scratchByte s k) ∧
      t.inputs = s.inputs ∧ t.unit = s.unit ∧ t.resets = s.resets

/-- A reinterpretation keeps its operand's low bits, and its inverse gives the operand back, through the scratch
buffer. Formalises R105. -/
def Obligations.BitcastsRoundTrip : Prop :=
  ∀ (s : State) (x b b' : Word64),
    (∃ t r u q, exec (.castF32I32 x b) s = .next t ∧ t.answers = s.answers ++ [⟨r, false⟩] ∧
      r.setWidth 32 = x.setWidth 32 ∧
      exec (.castI32F32 r b') t = .next u ∧ u.answers = t.answers ++ [⟨q, false⟩] ∧
      q.setWidth 32 = x.setWidth 32) ∧
    (∃ t r u q, exec (.castI32F32 x b) s = .next t ∧ t.answers = s.answers ++ [⟨r, false⟩] ∧
      r.setWidth 32 = x.setWidth 32 ∧
      exec (.castF32I32 r b') t = .next u ∧ u.answers = t.answers ++ [⟨q, false⟩] ∧
      q.setWidth 32 = x.setWidth 32) ∧
    (∃ t r u, exec (.castF64I64 x b) s = .next t ∧ t.answers = s.answers ++ [⟨r, false⟩] ∧ r = x ∧
      exec (.castI64F64 r b') t = .next u ∧ u.answers = t.answers ++ [⟨x, false⟩]) ∧
    (∃ t r u, exec (.castI64F64 x b) s = .next t ∧ t.answers = s.answers ++ [⟨r, false⟩] ∧ r = x ∧
      exec (.castF64I64 r b') t = .next u ∧ u.answers = t.answers ++ [⟨x, false⟩]) ∧
    (∃ t, exec (.castS64U64 x b) s = .next t ∧ t.answers = s.answers ++ [⟨x, false⟩])

/-- COPYSIGN.F32 answers with A's magnitude bits and B's sign bit. Formalises R122. -/
def Obligations.Copysign32TakesTheSignBitOfB : Prop :=
  ∀ (s : State) (a b : Word64), decode ⟨0x80, a, b⟩ = .instr (.copysignF32 a b) ∧
    ∃ r, AnswersOnly (.copysignF32 a b) s r ∧ r.getLsbD 31 = b.getLsbD 31 ∧
      (∀ i < 31, r.getLsbD i = a.getLsbD i) ∧
      (∀ i, 32 ≤ i → r.getLsbD i = false) ∧
      (a = b → r = (a.setWidth 32).setWidth 64)

/-- COPYSIGN.F64 answers with A's magnitude bits and B's sign bit. Formalises R123. -/
def Obligations.Copysign64TakesTheSignBitOfB : Prop :=
  ∀ (s : State) (a b : Word64), decode ⟨0x81, a, b⟩ = .instr (.copysignF64 a b) ∧
    ∃ r, AnswersOnly (.copysignF64 a b) s r ∧ r.getLsbD 63 = b.getLsbD 63 ∧
      (∀ i < 63, r.getLsbD i = a.getLsbD i) ∧
      (a = b → r = a)

/-- TRUNCSAT.S32.F32 truncates toward zero and saturates; NaN gives 0. Formalises R162. -/
def Obligations.TruncsatS32F32TruncatesAndSaturates : Prop :=
  ∀ (s : State) (a b : Word64), decode ⟨0xA0, a, b⟩ = .instr (.truncsatS32F32 a b) ∧
    ∃ k : Int, AnswersOnly (.truncsatS32F32 a b) s ((BitVec.ofInt 32 k).setWidth 64) ∧
      (isNaN32 a → k = 0) ∧
      (isInf32 a → k = if a.getLsbD 31 then -2 ^ 31 else 2 ^ 31 - 1) ∧
      (¬ allOnes32 a → k = clampInt (-2 ^ 31) (2 ^ 31 - 1) (truncTowardZero (value32 a)))

/-- TRUNCSAT.S32.F64 truncates toward zero and saturates; NaN gives 0. Formalises R163. -/
def Obligations.TruncsatS32F64TruncatesAndSaturates : Prop :=
  ∀ (s : State) (a b : Word64), decode ⟨0xA1, a, b⟩ = .instr (.truncsatS32F64 a b) ∧
    ∃ k : Int, AnswersOnly (.truncsatS32F64 a b) s ((BitVec.ofInt 32 k).setWidth 64) ∧
      (isNaN64 a → k = 0) ∧
      (isInf64 a → k = if a.getLsbD 63 then -2 ^ 31 else 2 ^ 31 - 1) ∧
      (¬ allOnes64 a → k = clampInt (-2 ^ 31) (2 ^ 31 - 1) (truncTowardZero (value64 a)))

/-- TRUNCSAT.U32.F32 truncates toward zero and saturates; NaN gives 0. Formalises R164. -/
def Obligations.TruncsatU32F32TruncatesAndSaturates : Prop :=
  ∀ (s : State) (a b : Word64), decode ⟨0xA2, a, b⟩ = .instr (.truncsatU32F32 a b) ∧
    ∃ k : Int, AnswersOnly (.truncsatU32F32 a b) s ((BitVec.ofInt 32 k).setWidth 64) ∧
      (isNaN32 a → k = 0) ∧
      (isInf32 a → k = if a.getLsbD 31 then 0 else 2 ^ 32 - 1) ∧
      (¬ allOnes32 a → k = clampInt (0) (2 ^ 32 - 1) (truncTowardZero (value32 a)))

/-- TRUNCSAT.U32.F64 truncates toward zero and saturates; NaN gives 0. Formalises R165. -/
def Obligations.TruncsatU32F64TruncatesAndSaturates : Prop :=
  ∀ (s : State) (a b : Word64), decode ⟨0xA3, a, b⟩ = .instr (.truncsatU32F64 a b) ∧
    ∃ k : Int, AnswersOnly (.truncsatU32F64 a b) s ((BitVec.ofInt 32 k).setWidth 64) ∧
      (isNaN64 a → k = 0) ∧
      (isInf64 a → k = if a.getLsbD 63 then 0 else 2 ^ 32 - 1) ∧
      (¬ allOnes64 a → k = clampInt (0) (2 ^ 32 - 1) (truncTowardZero (value64 a)))

/-- TRUNCSAT.S64.F32 truncates toward zero and saturates; NaN gives 0. Formalises R166. -/
def Obligations.TruncsatS64F32TruncatesAndSaturates : Prop :=
  ∀ (s : State) (a b : Word64), decode ⟨0xA4, a, b⟩ = .instr (.truncsatS64F32 a b) ∧
    ∃ k : Int, AnswersOnly (.truncsatS64F32 a b) s (BitVec.ofInt 64 k) ∧
      (isNaN32 a → k = 0) ∧
      (isInf32 a → k = if a.getLsbD 31 then -2 ^ 63 else 2 ^ 63 - 1) ∧
      (¬ allOnes32 a → k = clampInt (-2 ^ 63) (2 ^ 63 - 1) (truncTowardZero (value32 a)))

/-- TRUNCSAT.S64.F64 truncates toward zero and saturates; NaN gives 0. Formalises R167. -/
def Obligations.TruncsatS64F64TruncatesAndSaturates : Prop :=
  ∀ (s : State) (a b : Word64), decode ⟨0xA5, a, b⟩ = .instr (.truncsatS64F64 a b) ∧
    ∃ k : Int, AnswersOnly (.truncsatS64F64 a b) s (BitVec.ofInt 64 k) ∧
      (isNaN64 a → k = 0) ∧
      (isInf64 a → k = if a.getLsbD 63 then -2 ^ 63 else 2 ^ 63 - 1) ∧
      (¬ allOnes64 a → k = clampInt (-2 ^ 63) (2 ^ 63 - 1) (truncTowardZero (value64 a)))

/-- TRUNCSAT.U64.F32 truncates toward zero and saturates; NaN gives 0. Formalises R168. -/
def Obligations.TruncsatU64F32TruncatesAndSaturates : Prop :=
  ∀ (s : State) (a b : Word64), decode ⟨0xA6, a, b⟩ = .instr (.truncsatU64F32 a b) ∧
    ∃ k : Int, AnswersOnly (.truncsatU64F32 a b) s (BitVec.ofInt 64 k) ∧
      (isNaN32 a → k = 0) ∧
      (isInf32 a → k = if a.getLsbD 31 then 0 else 2 ^ 64 - 1) ∧
      (¬ allOnes32 a → k = clampInt (0) (2 ^ 64 - 1) (truncTowardZero (value32 a)))

/-- TRUNCSAT.U64.F64 truncates toward zero and saturates; NaN gives 0. Formalises R169. -/
def Obligations.TruncsatU64F64TruncatesAndSaturates : Prop :=
  ∀ (s : State) (a b : Word64), decode ⟨0xA7, a, b⟩ = .instr (.truncsatU64F64 a b) ∧
    ∃ k : Int, AnswersOnly (.truncsatU64F64 a b) s (BitVec.ofInt 64 k) ∧
      (isNaN64 a → k = 0) ∧
      (isInf64 a → k = if a.getLsbD 63 then 0 else 2 ^ 64 - 1) ∧
      (¬ allOnes64 a → k = clampInt (0) (2 ^ 64 - 1) (truncTowardZero (value64 a)))

/-- A NaN source, of any sign and payload, gives R = 0 in all eight truncations. Formalises R161. -/
def Obligations.NaNTruncatesToZeroEverywhere : Prop :=
  ∀ (s : State) (a b : Word64),
    (isNaN32 a → AnswersOnly (.truncsatS32F32 a b) s 0 ∧ AnswersOnly (.truncsatU32F32 a b) s 0 ∧
      AnswersOnly (.truncsatS64F32 a b) s 0 ∧ AnswersOnly (.truncsatU64F32 a b) s 0) ∧
    (isNaN64 a → AnswersOnly (.truncsatS32F64 a b) s 0 ∧ AnswersOnly (.truncsatU32F64 a b) s 0 ∧
      AnswersOnly (.truncsatS64F64 a b) s 0 ∧ AnswersOnly (.truncsatU64F64 a b) s 0)

/-- Comparing the source itself with the bounds, 2^63 and 2^64 for the wide ones, gives the same answers. Rests on
43_trunc_sat.md section 4 (R170). -/
def Obligations.BoundComparisonsDoNotDependOnSpelling : Prop :=
  ∀ (s : State) (a b : Word64),
    (¬ allOnes32 a →
      AnswersOnly (.truncsatS32F32 a b) s
        ((BitVec.ofInt 32 (if value32 a ≥ (2 ^ 31 - 1) then 2 ^ 31 - 1 else if value32 a ≤ (-2 ^ 31) then -2 ^ 31
          else truncTowardZero (value32 a))).setWidth 64) ∧
      AnswersOnly (.truncsatU32F32 a b) s
        ((BitVec.ofInt 32 (if value32 a ≥ (2 ^ 32 - 1) then 2 ^ 32 - 1 else if value32 a ≤ 0 then 0
          else truncTowardZero (value32 a))).setWidth 64) ∧
      AnswersOnly (.truncsatS64F32 a b) s
        (BitVec.ofInt 64 (if value32 a ≥ (2 ^ 63) then 2 ^ 63 - 1 else if value32 a ≤ (-2 ^ 63) then -2 ^ 63
          else truncTowardZero (value32 a))) ∧
      AnswersOnly (.truncsatU64F32 a b) s
        (BitVec.ofInt 64 (if value32 a ≥ (2 ^ 64) then 2 ^ 64 - 1 else if value32 a ≤ 0 then 0
          else truncTowardZero (value32 a)))) ∧
    (¬ allOnes64 a →
      AnswersOnly (.truncsatS32F64 a b) s
        ((BitVec.ofInt 32 (if value64 a ≥ (2 ^ 31 - 1) then 2 ^ 31 - 1 else if value64 a ≤ (-2 ^ 31) then -2 ^ 31
          else truncTowardZero (value64 a))).setWidth 64) ∧
      AnswersOnly (.truncsatU32F64 a b) s
        ((BitVec.ofInt 32 (if value64 a ≥ (2 ^ 32 - 1) then 2 ^ 32 - 1 else if value64 a ≤ 0 then 0
          else truncTowardZero (value64 a))).setWidth 64) ∧
      AnswersOnly (.truncsatS64F64 a b) s
        (BitVec.ofInt 64 (if value64 a ≥ (2 ^ 63) then 2 ^ 63 - 1 else if value64 a ≤ (-2 ^ 63) then -2 ^ 63
          else truncTowardZero (value64 a))) ∧
      AnswersOnly (.truncsatU64F64 a b) s
        (BitVec.ofInt 64 (if value64 a ≥ (2 ^ 64) then 2 ^ 64 - 1 else if value64 a ≤ 0 then 0
          else truncTowardZero (value64 a))))

/-- A mnemonic is recognised in any mixture of capitals and small letters, and nothing else is. Rests on
30_encoding.md section 5 (R84, R85). -/
def Obligations.MnemonicsAreCaseInsensitive : Prop :=
  ∀ written : List Char,
    (∀ r ∈ mnemonics, List.Forall₂ (fun w c => w = c ∨ w = c.toLower) written r.name →
      findMnemonic written = some r) ∧
    ((∀ r ∈ mnemonics, ¬ List.Forall₂ (fun w c => w = c ∨ w = c.toLower) written r.name) →
      findMnemonic written = none)
end

