-- ==== Sys2Proof/Laws/Assembler.lean ====
section
/-! SUPPORT. What the reading of program text does to letters: capitals, and the digits of a literal. -/

namespace Sys2Proof.Machine

theorem char_eq_iff_toNat {a b : Char} : a = b ↔ a.toNat = b.toNat :=
  ⟨fun h => h ▸ rfl, fun h => by rw [← Char.ofNat_toNat a, h, Char.ofNat_toNat]⟩

theorem toNat_toLower (c : Char) :
    c.toLower.toNat = if 65 ≤ c.toNat ∧ c.toNat ≤ 90 then c.toNat + 32 else c.toNat := by
  unfold Char.toLower
  split
  · next h =>
    have h' : 65 ≤ c.toNat ∧ c.toNat ≤ 90 := ⟨UInt32.le_iff_toNat_le.1 h.1, UInt32.le_iff_toNat_le.1 h.2⟩
    rw [if_pos h']
    show (c.val + ('a'.val - 'A'.val)).toNat = c.toNat + 32
    rw [UInt32.toNat_add]
    exact Nat.mod_eq_of_lt (by show c.toNat + 32 < 2 ^ 32; omega)
  · next h =>
    rw [if_neg]
    rintro ⟨h1, h2⟩
    exact h ⟨UInt32.le_iff_toNat_le.2 h1, UInt32.le_iff_toNat_le.2 h2⟩

/-- `upperChar` gives a character that is no small letter from that character and from its small letter, and from nothing
else. -/
theorem upperChar_eq_iff {w c : Char} (hc : ¬ (97 ≤ c.toNat ∧ c.toNat ≤ 122)) :
    upperChar w = c ↔ w = c ∨ w = c.toLower := by
  have hv : w.toNat ≤ 122 → (Char.ofNat (w.toNat - 32)).toNat = w.toNat - 32 := fun h => by
    rw [Char.toNat_ofNat, if_pos (Or.inl (by omega))]
  simp only [upperChar, char_eq_iff_toNat, toNat_toLower]
  split
  · rw [hv (by omega)]; split <;> omega
  · split <;> omega

theorem not_small_of_upperChar_eq {c : Char} (h : upperChar c = c) : ¬ (97 ≤ c.toNat ∧ c.toNat ≤ 122) := by
  intro hc
  rw [upperChar, if_pos hc, char_eq_iff_toNat, Char.toNat_ofNat, if_pos (Or.inl (by omega))] at h
  omega

theorem mnemonics_in_capitals : ∀ r ∈ mnemonics, r.name.map upperChar = r.name := by decide +kernel

/-- No character of a mnemonic is a small letter. -/
theorem mnemonics_have_no_small_letter :
    ∀ r ∈ mnemonics, ∀ c ∈ r.name, ¬ (97 ≤ c.toNat ∧ c.toNat ≤ 122) := fun r hr c hc =>
  not_small_of_upperChar_eq (List.map_inj_left.1 ((mnemonics_in_capitals r hr).trans (List.map_id _).symm) c hc)

/-- The capitals of a word are a name without small letters exactly when the word spells the name, each letter a capital or
small. -/
theorem map_upperChar_eq_iff {written name : List Char} (h : ∀ c ∈ name, ¬ (97 ≤ c.toNat ∧ c.toNat ≤ 122)) :
    written.map upperChar = name ↔ List.Forall₂ (fun w c => w = c ∨ w = c.toLower) written name := by
  induction written generalizing name with
  | nil => cases name <;> simp
  | cons w ws ih =>
    cases name with
    | nil => simp
    | cons c cs =>
      simp only [List.map_cons, List.cons.injEq, List.forall₂_cons,
        upperChar_eq_iff (h c (List.mem_cons_self ..)), ih fun x hx => h x (List.mem_cons_of_mem _ hx)]

theorem hexDigit_digitChar : ∀ d < 16, hexDigit (Nat.digitChar d) = some d := by decide

theorem hexDigit_digitChar_toUpper : ∀ d < 16, hexDigit (Nat.digitChar d).toUpper = some d := by decide

end Sys2Proof.Machine
end

