-- ==== Sys2Proof/Laws/Bits.lean ====
section
/-! SUPPORT. What the counting and rotation primitives give, bit by bit. -/

namespace Sys2Proof.Machine

variable {w : Nat} (v : BitVec w)

theorem getLsbD_rotl (k i : Nat) (hk : k < w) (hi : i < w) :
    (rotl v k).getLsbD i = if i < k then v.getLsbD (i + w - k) else v.getLsbD (i - k) := by
  simp only [rotl, BitVec.getLsbD_or, BitVec.getLsbD_shiftLeft, BitVec.getLsbD_ushiftRight]
  by_cases h : i < k
  · simp [h, show w - k + i = i + w - k by omega]
  · rw [BitVec.getLsbD_of_ge v (w - k + i) (by omega)]
    simp [h, hi]

theorem getLsbD_rotr (k i : Nat) (hk : k < w) (hi : i < w) :
    (rotr v k).getLsbD i = if i + k < w then v.getLsbD (i + k) else v.getLsbD (i + k - w) := by
  simp only [rotr, BitVec.getLsbD_or, BitVec.getLsbD_shiftLeft, BitVec.getLsbD_ushiftRight]
  by_cases h : i + k < w
  · simp [h, show i < w - k by omega, Nat.add_comm k i]
  · rw [BitVec.getLsbD_of_ge v (k + i) (by omega)]
    simp [h, hi, show ¬ i < w - k by omega, show i - (w - k) = i + k - w by omega]

theorem highestOneBelow_some {n h : Nat} (e : highestOneBelow v n = some h) :
    h < n ∧ v.getLsbD h = true ∧ ∀ i, h < i → i < n → v.getLsbD i = false := by
  induction n with
  | zero => simp [highestOneBelow] at e
  | succ n ih =>
    simp only [highestOneBelow] at e
    split at e
    · next hb => cases e; exact ⟨by omega, hb, fun i h1 h2 => by omega⟩
    · next hb =>
      obtain ⟨h1, h2, h3⟩ := ih e
      refine ⟨by omega, h2, fun i hi hn => ?_⟩
      rcases Nat.lt_succ_iff_lt_or_eq.1 hn with hn | rfl
      · exact h3 i hi hn
      · simpa using hb

theorem highestOneBelow_none {n : Nat} (e : highestOneBelow v n = none) : ∀ i, i < n → v.getLsbD i = false := by
  induction n with
  | zero => intro i hi; omega
  | succ n ih =>
    simp only [highestOneBelow] at e
    split at e
    · cases e
    · next hb =>
      intro i hi
      rcases Nat.lt_succ_iff_lt_or_eq.1 hi with hi | rfl
      · exact ih e i hi
      · simpa using hb

theorem lowestOneOfTop_some {n l : Nat} (hn : n ≤ w) (e : lowestOneOfTop v n = some l) :
    w - n ≤ l ∧ l < w ∧ v.getLsbD l = true ∧ ∀ i, w - n ≤ i → i < l → v.getLsbD i = false := by
  induction n with
  | zero => simp [lowestOneOfTop] at e
  | succ n ih =>
    simp only [lowestOneOfTop] at e
    split at e
    · next hb => cases e; exact ⟨le_refl _, by omega, hb, fun i h1 h2 => by omega⟩
    · next hb =>
      obtain ⟨h1, h2, h3, h4⟩ := ih (by omega) e
      refine ⟨by omega, h2, h3, fun i hi hl => ?_⟩
      by_cases hi' : w - n ≤ i
      · exact h4 i hi' hl
      · have : i = w - (n + 1) := by omega
        subst this; simpa using hb

theorem lowestOneOfTop_none {n : Nat} (hn : n ≤ w) (e : lowestOneOfTop v n = none) :
    ∀ i, w - n ≤ i → v.getLsbD i = false := by
  induction n with
  | zero => intro i hi; exact BitVec.getLsbD_of_ge v i (by omega)
  | succ n ih =>
    simp only [lowestOneOfTop] at e
    split at e
    · cases e
    · next hb =>
      intro i hi
      by_cases hi' : w - n ≤ i
      · exact ih (by omega) e i hi'
      · have : i = w - (n + 1) := by omega
        subst this; simpa using hb

theorem onesBelow_eq_countP (n : Nat) : onesBelow v n = (List.range n).countP (fun i => v.getLsbD i) := by
  induction n with
  | zero => rfl
  | succ n ih => simp only [onesBelow, ih, List.range_succ, List.countP_append, List.countP_singleton]

theorem rotl_rotr {k : Nat} (hk : k < w) : rotl (rotr v k) k = v := by
  ext i hi
  simp only [← BitVec.getLsbD_eq_getElem]
  rw [getLsbD_rotl _ _ _ hk hi]
  split
  · rw [getLsbD_rotr _ _ _ hk (by omega), if_neg (by omega)]; congr 1; omega
  · rw [getLsbD_rotr _ _ _ hk (by omega), if_pos (by omega)]; congr 1; omega

theorem rotr_rotl {k : Nat} (hk : k < w) : rotr (rotl v k) k = v := by
  ext i hi
  simp only [← BitVec.getLsbD_eq_getElem]
  rw [getLsbD_rotr _ _ _ hk hi]
  split
  · rw [getLsbD_rotl _ _ _ hk (by omega), if_neg (by omega)]; congr 1; omega
  · rw [getLsbD_rotl _ _ _ hk (by omega), if_pos (by omega)]; congr 1; omega

theorem rotr_eq_rotl {k : Nat} (hk : k < w) : rotr v k = rotl v ((w - k) % w) := by
  ext i hi
  simp only [← BitVec.getLsbD_eq_getElem]
  rw [getLsbD_rotr _ _ _ hk hi, getLsbD_rotl _ _ _ (Nat.mod_lt _ (by omega)) hi]
  by_cases h0 : k = 0
  · subst h0; simp [hi]
  · rw [Nat.mod_eq_of_lt (by omega : w - k < w)]
    split <;> split <;> (congr 1; omega)

/-- Everything `clz` says: the places above the first one are clear, and that one is set. -/
theorem clz_spec : clz v ≤ w ∧ (∀ i < w, w - clz v ≤ i → v.getLsbD i = false) ∧
    (clz v < w → v.getLsbD (w - 1 - clz v) = true) := by
  unfold clz
  split
  · next e => exact ⟨le_refl _, fun i hi _ => highestOneBelow_none v e i hi, fun h => by omega⟩
  · next h e =>
    obtain ⟨h1, h2, h3⟩ := highestOneBelow_some v e
    refine ⟨by omega, fun i hi hh => h3 i (by omega) hi, fun _ => ?_⟩
    rw [show w - 1 - (w - 1 - h) = h by omega]; exact h2

/-- Everything `ctz` says: the places below the first one are clear, and that one is set. -/
theorem ctz_spec : ctz v ≤ w ∧ (∀ i < ctz v, v.getLsbD i = false) ∧ (ctz v < w → v.getLsbD (ctz v) = true) := by
  unfold ctz
  split
  · next e => exact ⟨le_refl _, fun i hi => lowestOneOfTop_none v (le_refl _) e i (by omega), fun h => by omega⟩
  · next l e =>
    obtain ⟨h1, h2, h3, h4⟩ := lowestOneOfTop_some v (le_refl _) e
    exact ⟨by omega, fun i hi => h4 i (by omega) hi, fun _ => h3⟩

theorem popcount_eq_card : popcount v = ((Finset.range w).filter fun i => v.getLsbD i = true).card := by
  rw [popcount, onesBelow_eq_countP]
  generalize hp : (fun i => v.getLsbD i) = p
  rw [show ((Finset.range w).filter fun i => v.getLsbD i = true) =
    (Finset.range w).filter fun i => p i = true by rw [← hp]]
  clear hp
  induction w with
  | zero => rfl
  | succ n ih =>
    rw [List.range_succ, List.countP_append, ih 0, Finset.range_add_one, Finset.filter_insert]
    split <;> simp_all

end Sys2Proof.Machine
end

