-- ==== Sys2Proof/Laws/State.lean ====
section
/-! SUPPORT. One lemma per field of State and per update of it, true by rfl, so that no later proof unfolds an update. -/

namespace Sys2Proof.Machine

section AddAnswer
variable (s : State) (x : Answer)

@[simp] theorem addAnswer_scratch : (s.addAnswer x).scratch = s.scratch := rfl
@[simp] theorem addAnswer_unit : (s.addAnswer x).unit = s.unit := rfl
@[simp] theorem addAnswer_resets : (s.addAnswer x).resets = s.resets := rfl
@[simp] theorem addAnswer_inputs : (s.addAnswer x).inputs = s.inputs := rfl
@[simp] theorem addAnswer_answers : (s.addAnswer x).answers = s.answers ++ [x] := rfl
@[simp] theorem scratchByte_addAnswer (off : Nat) : scratchByte (s.addAnswer x) off = scratchByte s off := rfl

end AddAnswer

section SetScratch
variable (s : State) (m : Memory)

@[simp] theorem setScratch_scratch : (s.setScratch m).scratch = m := rfl
@[simp] theorem setScratch_unit : (s.setScratch m).unit = s.unit := rfl
@[simp] theorem setScratch_resets : (s.setScratch m).resets = s.resets := rfl
@[simp] theorem setScratch_inputs : (s.setScratch m).inputs = s.inputs := rfl
@[simp] theorem setScratch_answers : (s.setScratch m).answers = s.answers := rfl

end SetScratch

section SetInputs
variable (s : State) (l : List Input)

@[simp] theorem setInputs_scratch : (s.setInputs l).scratch = s.scratch := rfl
@[simp] theorem setInputs_unit : (s.setInputs l).unit = s.unit := rfl
@[simp] theorem setInputs_resets : (s.setInputs l).resets = s.resets := rfl
@[simp] theorem setInputs_inputs : (s.setInputs l).inputs = l := rfl
@[simp] theorem setInputs_answers : (s.setInputs l).answers = s.answers := rfl
@[simp] theorem scratchByte_setInputs (off : Nat) : scratchByte (s.setInputs l) off = scratchByte s off := rfl

end SetInputs

@[simp] theorem resetOf_scratch (k : Nat) : (State.resetOf k).scratch = [] := rfl
@[simp] theorem resetOf_inputs (k : Nat) : (State.resetOf k).inputs = [] := rfl
@[simp] theorem resetOf_answers (k : Nat) : (State.resetOf k).answers = [] := rfl

end Sys2Proof.Machine
end

