-- ==== Sys2Proof/Laws/Memory.lean ====
section
/-! SUPPORT. The laws of the scratch buffer: a read after a write gives what was written, a write leaves every other byte,
and every write keeps the canonical form. -/

namespace Sys2Proof.Machine

theorem written_put (k off : Nat) (v : Byte) (m : Memory) :
    Memory.written k (Memory.put off v m) = if k = off then some v else Memory.written k m := by
  induction m with
  | nil => simp [Memory.put, Memory.written]
  | cons c m ih =>
    obtain ⟨j, x⟩ := c
    simp only [Memory.put]
    split
    · simp only [Memory.written]
    · split
      · next h => subst h; simp only [Memory.written]; split <;> rfl
      · simp only [Memory.written, ih]
        split
        · next h => subst h; rw [if_neg (by omega)]
        · rfl

theorem mem_put {c : Host.Cell} {off : Nat} {v : Byte} {m : Memory} (h : c ∈ Memory.put off v m) :
    c = (off, v) ∨ c ∈ m := by
  induction m with
  | nil => simpa [Memory.put] using h
  | cons d m ih =>
    obtain ⟨j, x⟩ := d
    simp only [Memory.put] at h
    split at h
    · simpa using h
    · split at h
      · simp only [List.mem_cons] at h ⊢; tauto
      · simp only [List.mem_cons] at h ⊢
        rcases h with h | h
        · exact .inr (.inl h)
        · exact (ih h).imp_right .inr

theorem put_wf {off : Nat} {v : Byte} {m : Memory} (h : Memory.wf m) (ho : off < Config.scratchBytes) :
    Memory.wf (Memory.put off v m) := by
  refine ⟨?_, fun c hc => ?_⟩
  · obtain ⟨hp, -⟩ := h
    induction m with
    | nil => simp [Memory.put]
    | cons d m ih =>
      obtain ⟨j, x⟩ := d
      rw [List.pairwise_cons] at hp
      simp only [Memory.put]
      split
      · next hlt =>
        refine List.pairwise_cons.2 ⟨fun c hc => ?_, List.pairwise_cons.2 hp⟩
        rcases List.mem_cons.1 hc with rfl | hc
        · exact hlt
        · exact Nat.lt_trans hlt (hp.1 c hc)
      · split
        · next heq => subst heq; exact List.pairwise_cons.2 hp
        · refine List.pairwise_cons.2 ⟨fun c hc => ?_, ih hp.2⟩
          rcases mem_put hc with rfl | hc
          · show j < off; omega
          · exact hp.1 c hc
  · rcases mem_put hc with rfl | hc
    · exact ho
    · exact h.2 c hc

theorem written_putBytes (k off : Nat) (v : Word64) (n : Nat) (m : Memory) :
    Memory.written k (Memory.putBytes off v n m) =
      if off ≤ k ∧ k < off + n then some (v.extractLsb' (8 * (k - off)) 8) else Memory.written k m := by
  induction n with
  | zero => simp only [Memory.putBytes]; rw [if_neg (by omega)]
  | succ n ih =>
    simp only [Memory.putBytes, written_put, ih]
    by_cases h : k = off + n
    · subst h
      rw [if_pos rfl, if_pos (by omega)]
      congr 3; omega
    · rw [if_neg h]
      by_cases h' : off ≤ k ∧ k < off + n
      · rw [if_pos h', if_pos (by omega)]
      · rw [if_neg h', if_neg (by omega)]

theorem putBytes_wf {off : Nat} {v : Word64} {n : Nat} {m : Memory} (h : Memory.wf m)
    (ho : off + n ≤ Config.scratchBytes) : Memory.wf (Memory.putBytes off v n m) := by
  induction n with
  | zero => exact h
  | succ n ih => exact put_wf (ih (by omega)) (by omega)

/-- After a write, a byte inside the written range is the written one and every other byte is as before. -/
theorem scratchByte_setScratch_putBytes (s : State) (k off : Nat) (v : Word64) (n : Nat) :
    scratchByte (s.setScratch (Memory.putBytes off v n s.scratch)) k =
      if off ≤ k ∧ k < off + n then v.extractLsb' (8 * (k - off)) 8 else scratchByte s k := by
  simp only [scratchByte, setScratch_scratch, setScratch_unit, setScratch_resets, written_putBytes]
  split <;> rfl

/-- Bit `i` of what `MemRead` gives is bit `i % 8` of byte `off + i / 8`, little-endian (R17). -/
theorem getLsbD_bytesAt (s : State) (off n i : Nat) (hn : n ≤ 8) :
    (bytesAt s off n).getLsbD i = (decide (i < 8 * n) && (scratchByte s (off + i / 8)).getLsbD (i % 8)) := by
  induction n with
  | zero => simp [bytesAt]
  | succ n ih =>
    simp only [bytesAt, BitVec.getLsbD_or, ih (by omega), BitVec.getLsbD_shiftLeft, BitVec.getLsbD_setWidth]
    by_cases h1 : i < 8 * n
    · simp [h1, show i < 8 * (n + 1) by omega]
    · by_cases h2 : i < 8 * (n + 1)
      · have hd : i / 8 = n := by omega
        have hm : i % 8 = i - 8 * n := by omega
        simp [h1, h2, hd, hm, show i < 64 by omega, show i - 8 * n < 64 by omega]
      · simp only [h1, h2, decide_false, Bool.false_and, Bool.false_or]
        rw [BitVec.getLsbD_of_ge _ _ (by omega : 8 ≤ i - 8 * n)]
        simp

/-- `MemRead(off, n)` right after `MemWrite(off, n, v)` gives the low `n` bytes of `v`. -/
theorem bytesAt_putBytes (s : State) (off n : Nat) (v : Word64) (hn : n ≤ 8) :
    bytesAt (s.setScratch (Memory.putBytes off v n s.scratch)) off n = (v.setWidth (8 * n)).setWidth 64 := by
  ext i hi
  simp only [← BitVec.getLsbD_eq_getElem, getLsbD_bytesAt _ _ _ _ hn, BitVec.getLsbD_setWidth]
  by_cases h : i < 8 * n
  · rw [scratchByte_setScratch_putBytes, if_pos (by omega)]
    simp only [BitVec.getLsbD_extractLsb']
    simp [h, hi, Nat.mod_lt, Nat.div_add_mod i 8]
  · simp [h]

end Sys2Proof.Machine
end

