-- ==== Sys2Proof/Laws/Ops.lean ====
section
/-! SUPPORT. For each shared operation, one lemma that says everything it can do. -/

namespace Sys2Proof.Machine

theorem memWrite_inside {off n : Nat} (h : off + n ≤ Config.scratchBytes) (v : Word64) (s : State) :
    memWrite off n v s = .ok (s.setScratch (Memory.putBytes off v n s.scratch)) := if_pos h

theorem memWrite_outside {off n : Nat} (h : Config.scratchBytes < off + n) (v : Word64) (s : State) :
    memWrite off n v s = .error (.noSuchOffset off n) := if_neg (by omega)

theorem memRead_inside {off n : Nat} (h : off + n ≤ Config.scratchBytes) (s : State) :
    memRead off n s = .ok (bytesAt s off n) := if_pos h

theorem memRead_outside {off n : Nat} (h : Config.scratchBytes < off + n) (s : State) :
    memRead off n s = .error (.noSuchOffset off n) := if_neg (by omega)

theorem laneBytes_le (l : Lane) : laneBytes l ≤ Config.scratchBytes := by cases l <;> decide

theorem answer_next (r : Word64) (s : State) : answer r s = .next (s.addAnswer (legalAnswer r)) := rfl

theorem raiseIllegalOp_next (s : State) : raiseIllegalOp s = .next (s.addAnswer illegalAnswer) := rfl

/-- A reinterpretation through two lanes of one size always answers, with the low bytes of its operand, and the written
lane is all it changes in `S`. -/
theorem reinterpret_next {w r : Lane} (h : laneBytes w = laneBytes r) (v : Word64) (s : State) :
    reinterpret w r v s = .next ((s.setScratch (Memory.putBytes 0 v (laneBytes w) s.scratch)).addAnswer
      (legalAnswer ((v.setWidth (8 * laneBytes w)).setWidth 64))) := by
  have hw : 0 + laneBytes w ≤ Config.scratchBytes := by have := laneBytes_le w; omega
  simp only [reinterpret, memWrite_inside hw, ← h, memRead_inside hw,
    bytesAt_putBytes s 0 _ v (laneBytes_le w), answer_next]

/-- Taking an input: nothing waits, or the oldest input is taken and nothing else changes. -/
theorem fetchInput_cases (s : State) :
    (s.inputs = [] ∧ fetchInput s = none) ∨
      ∃ x rest, s.inputs = x :: rest ∧ fetchInput s = some (x, s.setInputs rest) := by
  unfold fetchInput
  cases h : s.inputs with
  | nil => exact .inl ⟨rfl, rfl⟩
  | cons x rest => exact .inr ⟨x, rest, rfl, rfl⟩

end Sys2Proof.Machine
end

