-- ==== Sys2Proof/Laws/Exec.lean ====
section
/-! SUPPORT. Once, everything an instruction and a step can do. -/

namespace Sys2Proof.Machine

/-- The written bytes of `S` after an instruction: a reinterpretation writes its lane, nothing else writes. -/
def scratchAfter (i : Instr) (m : Memory) : Memory :=
  match i with
  | .castI32F32 a _ | .castF32I32 a _ => Memory.putBytes 0 (result32 (word32 a)) 4 m
  | .castI64F64 a _ | .castF64I64 a _ | .castS64U64 a _ => Memory.putBytes 0 a 8 m
  | _ => m

theorem reinterpret_four (w r : Lane) (hw : laneBytes w = 4) (hr : laneBytes r = 4) (v : Word32) (s : State) :
    reinterpret w r (result32 v) s =
      .next ((s.setScratch (Memory.putBytes 0 (result32 v) 4 s.scratch)).addAnswer (legalAnswer (result32 v))) := by
  rw [reinterpret_next (hw.trans hr.symm), hw]; simp [result32]

theorem reinterpret_eight (w r : Lane) (hw : laneBytes w = 8) (hr : laneBytes r = 8) (v : Word64) (s : State) :
    reinterpret w r v s =
      .next ((s.setScratch (Memory.putBytes 0 v 8 s.scratch)).addAnswer (legalAnswer v)) := by
  rw [reinterpret_next (hw.trans hr.symm), hw]; simp

/-- Every instruction answers: `R` as the model without `S` gives it, `ILLEGAL = 0`, and `S` changed as `scratchAfter`
says. -/
theorem exec_next (i : Instr) (s : State) :
    exec i s = .next ((s.setScratch (scratchAfter i s.scratch)).addAnswer (legalAnswer (resultOf i))) := by
  cases i with
  | castI32F32 a b => exact reinterpret_four .f32 .i32 rfl rfl _ s
  | castF32I32 a b => exact reinterpret_four .i32 .f32 rfl rfl _ s
  | castI64F64 a b => exact reinterpret_eight .f64 .u64 rfl rfl _ s
  | castF64I64 a b => exact reinterpret_eight .u64 .f64 rfl rfl _ s
  | castS64U64 a b => exact reinterpret_eight .u64 .i64 rfl rfl _ s
  | _ => rfl

theorem scratchAfter_wf (i : Instr) {m : Memory} (h : Memory.wf m) : Memory.wf (scratchAfter i m) := by
  cases i <;> first | exact h | exact putBytes_wf h (by decide)

theorem step_idle {s : State} (h : s.inputs = []) : step s = .next s := by
  simp only [step, fetchInput, h, idle]

theorem step_reset {s : State} {cut : Option Command} {rest : List Input} (h : s.inputs = .reset cut :: rest) :
    step s = .next { s with scratch := [], resets := s.resets + 1, inputs := rest } := by
  simp only [step, fetchInput, h, takeReset, State.setInputs]

theorem step_instr {s : State} {c : Command} {rest : List Input} {i : Instr} (h : s.inputs = .command c :: rest)
    (hd : decode c = .instr i) : step s = exec i (s.setInputs rest) := by
  simp only [step, fetchInput, h, hd]

theorem step_reserved {s : State} {c : Command} {rest : List Input} {why : Reserved}
    (h : s.inputs = .command c :: rest) (hd : decode c = .reserved why) :
    step s = raiseIllegalOp (s.setInputs rest) := by
  simp only [step, fetchInput, h, hd]

end Sys2Proof.Machine
end

