-- ==== Sys2Proof/Laws/Float.lean ====
section
/-! SUPPORT. The exact arithmetic of the truncations, over the rationals: truncation of `m · 2^x`, and the pipeline of
spec/43_trunc_sat.md R160 on a decoded pattern. -/

namespace Sys2Proof.Machine

theorem floorScaled_eq_floor (m : ℕ) (x : ℤ) : (floorScaled m x : ℤ) = ⌊(m : ℚ) * (2 : ℚ) ^ x⌋ := by
  cases x with
  | ofNat k =>
    simp only [floorScaled, Int.ofNat_eq_natCast, zpow_natCast]
    rw [show ((m : ℚ) * 2 ^ k) = (((m * 2 ^ k : ℕ) : ℤ) : ℚ) by push_cast; rfl, Int.floor_intCast]
  | negSucc k =>
    simp only [floorScaled, zpow_negSucc, ← div_eq_mul_inv]
    have := Rat.floor_intCast_div_natCast (m : ℤ) (2 ^ (k + 1))
    push_cast at this ⊢
    rw [this]

theorem truncReal_eq_truncTowardZero (sg : Bool) (m : ℕ) (x : ℤ) :
    truncReal sg m x = truncTowardZero ((if sg then -1 else 1) * m * (2 : ℚ) ^ x) := by
  have hp : (0 : ℚ) ≤ m * (2 : ℚ) ^ x := by positivity
  unfold truncReal truncTowardZero
  cases sg with
  | false => simp only [Bool.false_eq_true, if_false, one_mul]; rw [if_pos hp, floorScaled_eq_floor]
  | true =>
    simp only [if_true, neg_mul, one_mul]
    rw [floorScaled_eq_floor, ← Int.ceil_neg]
    split
    · have : (m : ℚ) * (2 : ℚ) ^ x = 0 := le_antisymm (by linarith) hp
      rw [this]; simp
    · rfl

/-- The pipeline on a classified pattern: NaN to 0, an infinity to its bound, a real number truncated and clamped. -/
theorem saturate_classify (F : FloatFormat) (lo hi : ℤ) (sg : Bool) (e f : ℕ) :
    (e = 2 ^ F.expBits - 1 ∧ f ≠ 0 → saturate lo hi (classify F sg e f) = 0) ∧
    (e = 2 ^ F.expBits - 1 ∧ f = 0 → saturate lo hi (classify F sg e f) = if sg then lo else hi) ∧
    (¬ e = 2 ^ F.expBits - 1 →
      saturate lo hi (classify F sg e f) = clampInt lo hi (truncTowardZero (ieeeValue F.bias F.fracBits sg e f))) := by
  refine ⟨fun h => by simp [classify, h, saturate], fun h => by cases sg <;> simp [classify, h, saturate, clamp],
    fun h => ?_⟩
  unfold classify ieeeValue
  rw [if_neg h]
  split
  · simp only [saturate, clamp, truncReal_eq_truncTowardZero]; rfl
  · simp only [saturate, clamp, truncReal_eq_truncTowardZero]; push_cast; rfl

theorem fdecode32_word32 (a : Word64) : fdecode32 (word32 a) =
    classify binary32 (a.getLsbD 31) (a.toNat / 2 ^ 23 % 2 ^ 8) (a.toNat % 2 ^ 23) := by
  unfold fdecode32; congr 1 <;> simp [word32, Nat.shiftRight_eq_div_pow]

theorem fdecode64_eq (a : Word64) : fdecode64 a =
    classify binary64 (a.getLsbD 63) (a.toNat / 2 ^ 52 % 2 ^ 11) (a.toNat % 2 ^ 52) := by
  unfold fdecode64; congr 1; simp [Nat.shiftRight_eq_div_pow]

/-- Clamping the truncated number is comparing the number itself with the bounds (one spelling of R170). -/
theorem clampInt_truncTowardZero {lo hi : ℤ} (hhi : 0 < hi) (hlo : lo ≤ 0) (x : ℚ) :
    clampInt lo hi (truncTowardZero x) = if x ≥ hi then hi else if x ≤ lo then lo else truncTowardZero x := by
  have above : truncTowardZero x ≥ hi ↔ x ≥ hi := by
    unfold truncTowardZero; split
    · exact Int.le_floor
    · next h =>
      have h0 : ⌈x⌉ ≤ 0 := Int.ceil_le.2 (by push_cast; linarith)
      have : (0 : ℚ) < hi := by exact_mod_cast hhi
      exact ⟨fun h' => by omega, fun h' => by linarith⟩
  unfold clampInt
  by_cases hx : x ≥ hi
  · rw [if_pos (above.2 hx), if_pos hx]
  · rw [if_neg (fun h => hx (above.1 h)), if_neg hx]
    have hlo' : (lo : ℚ) ≤ 0 := by exact_mod_cast hlo
    by_cases hl : x ≤ lo
    · rw [if_pos hl, if_pos]
      unfold truncTowardZero; split
      · have : ((⌊x⌋ : ℤ) : ℚ) ≤ lo := (Int.floor_le x).trans hl
        exact_mod_cast this
      · exact Int.ceil_le.2 hl
    · rw [if_neg hl]
      split
      · next h =>
        unfold truncTowardZero at h ⊢; split at h
        · next h0 => rw [if_pos h0]; have := Int.floor_nonneg.2 h0; omega
        · exact absurd (Int.ceil_le.1 h) hl
      · rfl

end Sys2Proof.Machine
end

