-- ==== Sys2Proof/Laws/Operands.lean ====
section
/-! SUPPORT. What operand assembly takes from a port, as truncations, remainders and single bits. -/

namespace Sys2Proof.Machine

theorem word32_eq_setWidth (a : Word64) : word32 a = a.setWidth 32 := by
  ext i hi; simp [word32]

theorem highHalf_eq_setWidth (a : Word64) : highHalf a = (a >>> 32).setWidth 32 := by
  ext i hi; simp [highHalf]

theorem amount32_eq_mod (b : Word64) : amount32 b = b.toNat % 32 := by simp [amount32]

theorem amount64_eq_mod (b : Word64) : amount64 b = b.toNat % 64 := by simp [amount64]

theorem getLsbD_word32 (a : Word64) {i : Nat} (h : i < 32) : (word32 a).getLsbD i = a.getLsbD i := by
  simp [word32, h]

theorem getLsbD_highHalf (a : Word64) {i : Nat} (h : i < 32) : (highHalf a).getLsbD i = a.getLsbD (32 + i) := by
  simp [highHalf, h]

theorem toNat_word32 (a : Word64) : (word32 a).toNat = a.toNat % 2 ^ 32 := by simp [word32]

theorem toNat_highHalf (a : Word64) : (highHalf a).toNat = a.toNat / 2 ^ 32 := by
  simp [highHalf, Nat.shiftRight_eq_div_pow]; have := a.isLt; omega

theorem word32_eq_zero_iff (a : Word64) : word32 a = 0 ↔ a.toNat % 2 ^ 32 = 0 := by
  rw [← toNat_word32]; exact ⟨fun h => by rw [h]; rfl, fun h => BitVec.eq_of_toNat_eq h⟩

theorem highHalf_eq_zero_iff (a : Word64) : highHalf a = 0 ↔ a.toNat / 2 ^ 32 = 0 := by
  rw [← toNat_highHalf]; exact ⟨fun h => by rw [h]; rfl, fun h => BitVec.eq_of_toNat_eq h⟩

/-- The bytes of a zero-extended 32-bit operand are the port's low four. -/
theorem byte_result32_word32 (a : Word64) {k : Nat} (h : k < 4) :
    (result32 (word32 a)).extractLsb' (8 * k) 8 = a.extractLsb' (8 * k) 8 := by
  ext i hi; simp [result32, word32, show 8 * k + i < 64 by omega, show 8 * k + i < 32 by omega]

end Sys2Proof.Machine
end

