-- ==== Sys2Proof/Laws/PerInstr.lean ====
section
/-! SUPPORT. Statements made for every instruction, one lemma per constructor. -/

namespace Sys2Proof.Laws.EncodesLegalCommand

/-- The encoded command of `i` is well-formed: its `op` lies in no reserved range of spec/30_encoding.md R80. -/
def Statement (i : Instr) : Prop := (encode i).wf = true

theorem rotl32 (a b : Word64) : Statement (.rotl32 a b) := rfl
theorem rotr32 (a b : Word64) : Statement (.rotr32 a b) := rfl
theorem clz32 (a b : Word64) : Statement (.clz32 a b) := rfl
theorem ctz32 (a b : Word64) : Statement (.ctz32 a b) := rfl
theorem popcnt32 (a b : Word64) : Statement (.popcnt32 a b) := rfl
theorem rotl64 (a b : Word64) : Statement (.rotl64 a b) := rfl
theorem rotr64 (a b : Word64) : Statement (.rotr64 a b) := rfl
theorem clz64 (a b : Word64) : Statement (.clz64 a b) := rfl
theorem ctz64 (a b : Word64) : Statement (.ctz64 a b) := rfl
theorem popcnt64 (a b : Word64) : Statement (.popcnt64 a b) := rfl
theorem sext8 (a b : Word64) : Statement (.sext8 a b) := rfl
theorem sext16 (a b : Word64) : Statement (.sext16 a b) := rfl
theorem sext32 (a b : Word64) : Statement (.sext32 a b) := rfl
theorem castI32F32 (a b : Word64) : Statement (.castI32F32 a b) := rfl
theorem castF32I32 (a b : Word64) : Statement (.castF32I32 a b) := rfl
theorem castI64F64 (a b : Word64) : Statement (.castI64F64 a b) := rfl
theorem castF64I64 (a b : Word64) : Statement (.castF64I64 a b) := rfl
theorem castS64U64 (a b : Word64) : Statement (.castS64U64 a b) := rfl
theorem copysignF32 (a b : Word64) : Statement (.copysignF32 a b) := rfl
theorem copysignF64 (a b : Word64) : Statement (.copysignF64 a b) := rfl
theorem truncsatS32F32 (a b : Word64) : Statement (.truncsatS32F32 a b) := rfl
theorem truncsatS32F64 (a b : Word64) : Statement (.truncsatS32F64 a b) := rfl
theorem truncsatU32F32 (a b : Word64) : Statement (.truncsatU32F32 a b) := rfl
theorem truncsatU32F64 (a b : Word64) : Statement (.truncsatU32F64 a b) := rfl
theorem truncsatS64F32 (a b : Word64) : Statement (.truncsatS64F32 a b) := rfl
theorem truncsatS64F64 (a b : Word64) : Statement (.truncsatS64F64 a b) := rfl
theorem truncsatU64F32 (a b : Word64) : Statement (.truncsatU64F32 a b) := rfl
theorem truncsatU64F64 (a b : Word64) : Statement (.truncsatU64F64 a b) := rfl

end Sys2Proof.Laws.EncodesLegalCommand
end

