-- ==== Sys2Proof/Laws/Sext64.lean ====
section
/-! SUPPORT. The document's method of sign extension (spec/44_sign_extend.md R180), bit by bit and as `sext_64`. -/

namespace Sys2Proof.Machine

theorem getLsbD_extendField (M : Nat) (a : Word64) {i : Nat} (hi : i < 64) :
    (extendField M a).getLsbD i = if i < M then a.getLsbD i else a.getLsbD (M - 1) := by
  have hb : (BitVec.ofNat 64 (2 ^ M - 1)).getLsbD i = decide (i < M) := by
    rw [BitVec.getLsbD_ofNat, Nat.testBit_two_pow_sub_one]; simp [hi]
  unfold extendField
  split
  · next h =>
    rw [BitVec.getLsbD_or, BitVec.getLsbD_not, hb, h]; simp [hi]; rw [Bool.or_comm]
  · next h =>
    rw [BitVec.getLsbD_and, hb]; split <;> simp_all

theorem extendField_eq_signExtend {M : Nat} (hM : 0 < M ∧ M ≤ 32) (a : Word64) :
    extendField M a = (a.setWidth M).signExtend 64 := by
  ext i hi
  rw [← BitVec.getLsbD_eq_getElem, ← BitVec.getLsbD_eq_getElem, getLsbD_extendField M a hi,
    BitVec.getLsbD_signExtend]
  simp only [BitVec.getLsbD_setWidth, BitVec.msb_eq_getLsbD_last, hi, decide_true, Bool.true_and]
  split
  · next h => simp [h]
  · simp; omega

end Sys2Proof.Machine
end

