-- ==== Sys2Proof/Tests/Slice0.lean ====
section
/-! SUPPORT. The model's own tests. Expected results come from spec/95_test_vectors.md and the tables of
spec/30_encoding.md; then one witness for each statement of Certificates/Slice0/Obligations.lean that has hypotheses. -/

namespace Sys2Proof.Tests

open Sys2Proof Sys2Proof.Machine

/-! ### WellFormed: every reserved range of R80 is refused, at both of its ends -/

theorem test_wf_refuses_05_to_1F :
    Command.wf ⟨0x05, 0, 0⟩ = false ∧ Command.wf ⟨0x1F, 0, 0⟩ = false := by decide
theorem test_wf_refuses_25_to_3F :
    Command.wf ⟨0x25, 0, 0⟩ = false ∧ Command.wf ⟨0x3F, 0, 0⟩ = false := by decide
theorem test_wf_refuses_43_to_5F :
    Command.wf ⟨0x43, 0, 0⟩ = false ∧ Command.wf ⟨0x5F, 0, 0⟩ = false := by decide
theorem test_wf_refuses_65_to_7F :
    Command.wf ⟨0x65, 0, 0⟩ = false ∧ Command.wf ⟨0x7F, 0, 0⟩ = false := by decide
theorem test_wf_refuses_82_to_9F :
    Command.wf ⟨0x82, 0, 0⟩ = false ∧ Command.wf ⟨0x9F, 0, 0⟩ = false := by decide
theorem test_wf_refuses_A8_to_BF :
    Command.wf ⟨0xA8, 0, 0⟩ = false ∧ Command.wf ⟨0xBF, 0, 0⟩ = false := by decide
theorem test_wf_refuses_C0_to_FF :
    Command.wf ⟨0xC0, 0, 0⟩ = false ∧ Command.wf ⟨0xFF, 0, 0⟩ = false := by decide

/-- The legal neighbours that spec/95_test_vectors.md section 2.7 lists for a decoder test. -/
theorem test_wf_admits_neighbours :
    [0x04, 0x24, 0x42, 0x64, 0x81, 0xA7].all (fun op => Command.wf ⟨op, 0, 0⟩) = true := by decide

/-! ### Decode: the word of every row, `G FN` written out from the tables R73 to R78 -/

theorem test_decode_int32 :
    decodeTableWord 8 0b00000000 = some (.rotl32 0 0) ∧
    decodeTableWord 8 0b00000001 = some (.rotr32 0 0) ∧
    decodeTableWord 8 0b00000010 = some (.clz32 0 0) ∧
    decodeTableWord 8 0b00000011 = some (.ctz32 0 0) ∧
    decodeTableWord 8 0b00000100 = some (.popcnt32 0 0) := by decide

theorem test_decode_int64 :
    decodeTableWord 8 0b00100000 = some (.rotl64 0 0) ∧
    decodeTableWord 8 0b00100001 = some (.rotr64 0 0) ∧
    decodeTableWord 8 0b00100010 = some (.clz64 0 0) ∧
    decodeTableWord 8 0b00100011 = some (.ctz64 0 0) ∧
    decodeTableWord 8 0b00100100 = some (.popcnt64 0 0) := by decide

theorem test_decode_sext64 :
    decodeTableWord 8 0b01000000 = some (.sext8 0 0) ∧
    decodeTableWord 8 0b01000001 = some (.sext16 0 0) ∧
    decodeTableWord 8 0b01000010 = some (.sext32 0 0) := by decide

theorem test_decode_bitcast :
    decodeTableWord 8 0b01100000 = some (.castI32F32 0 0) ∧
    decodeTableWord 8 0b01100001 = some (.castF32I32 0 0) ∧
    decodeTableWord 8 0b01100010 = some (.castI64F64 0 0) ∧
    decodeTableWord 8 0b01100011 = some (.castF64I64 0 0) ∧
    decodeTableWord 8 0b01100100 = some (.castS64U64 0 0) := by decide

theorem test_decode_fsign :
    decodeTableWord 8 0b10000000 = some (.copysignF32 0 0) ∧
    decodeTableWord 8 0b10000001 = some (.copysignF64 0 0) := by decide

theorem test_decode_truncsat :
    decodeTableWord 8 0b10100000 = some (.truncsatS32F32 0 0) ∧
    decodeTableWord 8 0b10100001 = some (.truncsatS32F64 0 0) ∧
    decodeTableWord 8 0b10100010 = some (.truncsatU32F32 0 0) ∧
    decodeTableWord 8 0b10100011 = some (.truncsatU32F64 0 0) ∧
    decodeTableWord 8 0b10100100 = some (.truncsatS64F32 0 0) ∧
    decodeTableWord 8 0b10100101 = some (.truncsatS64F64 0 0) ∧
    decodeTableWord 8 0b10100110 = some (.truncsatU64F32 0 0) ∧
    decodeTableWord 8 0b10100111 = some (.truncsatU64F64 0 0) := by decide

/-- The reserved codes of spec/95_test_vectors.md section 2.7 are refused by name. -/
theorem test_decode_refuses_by_name :
    decode ⟨0x05, 1, 2⟩ = .reserved (.unusedFunction .int32 5) ∧
    decode ⟨0x25, 1, 2⟩ = .reserved (.unusedFunction .int64 5) ∧
    decode ⟨0x43, 1, 2⟩ = .reserved (.unusedFunction .sext64 3) ∧
    decode ⟨0x65, 1, 2⟩ = .reserved (.unusedFunction .bitcast 5) ∧
    decode ⟨0x82, 1, 2⟩ = .reserved (.unusedFunction .fsign 2) ∧
    decode ⟨0xA8, 1, 2⟩ = .reserved (.unusedFunction .truncsat 8) ∧
    decode ⟨0xB0, 1, 2⟩ = .reserved (.unusedFunction .truncsat 16) ∧
    decode ⟨0xC0, 1, 2⟩ = .reserved (.unusedGroup 6) ∧
    decode ⟨0xFF, 1, 2⟩ = .reserved (.unusedGroup 7) := by decide

theorem test_encode_puts_operands_on_their_ports :
    encode (.rotl32 0x12345678 0x24) = ⟨0x00, 0x12345678, 0x24⟩ ∧
    encode (.copysignF64 0x4014000000000000 0x8000000000000000) =
      ⟨0x81, 0x4014000000000000, 0x8000000000000000⟩ := by decide

/-! ### Meanings: the vectors of spec/95_test_vectors.md and the examples of the instruction rules -/

/-- A small state to try instructions in: three bytes of `S` written, one answer given, one command waiting. -/
def base : State :=
  { scratch := [(1, 0xAA), (4, 0x1D), (7, 0x44)], unit := 0, resets := 0,
    inputs := [.command ⟨0xFF, 0, 0⟩], answers := [⟨7, false⟩] }

/-- `i` at `base` answers `r` with `ILLEGAL = 0` and leaves `m` as the written bytes of `S`, and nothing else changes. -/
def gives (i : Instr) (r : Word64) (m : Memory) : Bool :=
  match exec i base with
  | .next t => t == { base with scratch := m, answers := [⟨7, false⟩, ⟨r, false⟩] }
  | _ => false

/-- Every vector `(A, B, R)` of an instruction that leaves `S` alone. -/
def allGive (i : Word64 → Word64 → Instr) (vs : List (Word64 × Word64 × Word64)) : Bool :=
  vs.all fun v => gives (i v.1 v.2.1) v.2.2 base.scratch

theorem test_rotl32_vectors : allGive .rotl32
    [(0x12345678, 0x0, 0x0000000012345678),
     (0x12345678, 0x4, 0x0000000023456781),
     (0x12345678, 0x1F, 0x00000000091A2B3C),
     (0x12345678, 0x20, 0x0000000012345678),
     (0x12345678, 0x24, 0x0000000023456781),
     (0xFFFFFFFF00000001, 0x1, 0x0000000000000002),
     (0x80000001, 0x1, 0x0000000000000003)] = true := by decide

theorem test_rotr32_vectors : allGive .rotr32
    [(0x12345678, 0x4, 0x0000000081234567),
     (0x12345678, 0x0, 0x0000000012345678),
     (0x80000000, 0x1F, 0x0000000000000001),
     (0x12345678, 0x24, 0x0000000081234567),
     (0x00000001, 0x1, 0x0000000080000000),
     (0xDEADBEEF, 0x28, 0x00000000EFDEADBE)] = true := by decide

theorem test_clz32_vectors : allGive .clz32
    [(0x0, 0, 0x0000000000000020),
     (0x1, 0, 0x000000000000001F),
     (0x80000000, 0, 0x0000000000000000),
     (0xFFFFFFFF00000000, 0, 0x0000000000000020),
     (0x00FF0000, 0, 0x0000000000000008),
     (0x0000000000F00000, 0, 0x0000000000000008),
     (0x00010000, 0, 0x000000000000000F)] = true := by decide

theorem test_ctz32_vectors : allGive .ctz32
    [(0x0, 0, 0x0000000000000020),
     (0x80000000, 0, 0x000000000000001F),
     (0x100000000, 0, 0x0000000000000020),
     (0x00FF0000, 0, 0x0000000000000010),
     (0x0, 0x0, 0x0000000000000020),
     (0x1, 0x0, 0x0000000000000000),
     (0x00000008, 0, 0x0000000000000003)] = true := by decide

theorem test_popcnt32_vectors : allGive .popcnt32
    [(0x12345678, 0, 0x000000000000000D),
     (0xFFFFFFFF00000000, 0, 0x0000000000000000),
     (0xF0F0F0F0, 0, 0x0000000000000010),
     (0x0, 0x0, 0x0000000000000000),
     (0xFFFFFFFF, 0x0, 0x0000000000000020)] = true := by decide

theorem test_rotl64_vectors : allGive .rotl64
    [(0x0123456789ABCDEF, 0x0, 0x0123456789ABCDEF),
     (0x0123456789ABCDEF, 0x8, 0x23456789ABCDEF01),
     (0x0123456789ABCDEF, 0x3F, 0x8091A2B3C4D5E6F7),
     (0x0123456789ABCDEF, 0x40, 0x0123456789ABCDEF),
     (0x0123456789ABCDEF, 0x48, 0x23456789ABCDEF01),
     (0x1, 0x1, 0x0000000000000002),
     (0x8000000000000000, 0x1, 0x0000000000000001),
     (0x0000000000F00000, 0x2C, 0x000000000000000F)] = true := by decide

theorem test_rotr64_vectors : allGive .rotr64
    [(0x0123456789ABCDEF, 0x8, 0xEF0123456789ABCD),
     (0x0123456789ABCDEF, 0x20, 0x89ABCDEF01234567),
     (0x0123456789ABCDEF, 0x0, 0x0123456789ABCDEF),
     (0x1, 0x1, 0x8000000000000000),
     (0x0000000000000001, 0x1, 0x8000000000000000)] = true := by decide

theorem test_clz64_vectors : allGive .clz64
    [(0x0, 0, 0x0000000000000040),
     (0x1, 0, 0x000000000000003F),
     (0x8000000000000000, 0, 0x0000000000000000),
     (0x0000000080000000, 0, 0x0000000000000020),
     (0x0000000100000000, 0, 0x000000000000001F),
     (0x00000000FFFFFFFF, 0, 0x0000000000000020),
     (0x0, 0x0, 0x0000000000000040),
     (0x0000000000F00000, 0, 0x0000000000000028)] = true := by decide

theorem test_ctz64_vectors : allGive .ctz64
    [(0x0, 0, 0x0000000000000040),
     (0x1, 0, 0x0000000000000000),
     (0x0000000100000000, 0, 0x0000000000000020),
     (0x0000000080000000, 0, 0x000000000000001F),
     (0x8000000000000000, 0x0, 0x000000000000003F),
     (0x0000000000F00000, 0, 0x0000000000000014),
     (0x8000000000000000, 0, 0x000000000000003F)] = true := by decide

theorem test_popcnt64_vectors : allGive .popcnt64
    [(0x0, 0, 0x0000000000000000),
     (0x8000000000000001, 0, 0x0000000000000002),
     (0x0123456789ABCDEF, 0, 0x0000000000000020),
     (0xFFFFFFFFFFFFFFFF, 0x0, 0x0000000000000040),
     (0x0000000000F00000, 0, 0x0000000000000004),
     (0xFFFFFFFFFFFFFFFF, 0, 0x0000000000000040)] = true := by decide

theorem test_sext8_vectors : allGive .sext8
    [(0x80, 0xDEAD, 0xFFFFFFFFFFFFFF80),
     (0xFFFFFFFFFFFFFF00, 0xDEAD, 0x0000000000000000),
     (0x123456789ABCDE7F, 0xDEAD, 0x000000000000007F),
     (0xFF, 0x0, 0xFFFFFFFFFFFFFFFF),
     (0x7F, 0x0, 0x000000000000007F),
     (0x1234567890ABCDEF, 0, 0xFFFFFFFFFFFFFFEF),
     (0xFF, 0, 0xFFFFFFFFFFFFFFFF)] = true := by decide

theorem test_sext16_vectors : allGive .sext16
    [(0x8000, 0xDEAD, 0xFFFFFFFFFFFF8000),
     (0x7FFF, 0xDEAD, 0x0000000000007FFF),
     (0x18000, 0xDEAD, 0xFFFFFFFFFFFF8000),
     (0xFFFFFFFFFFFF0000, 0xDEAD, 0x0000000000000000),
     (0x1234FFFE, 0xDEAD, 0xFFFFFFFFFFFFFFFE),
     (0x1234FFFE, 0, 0xFFFFFFFFFFFFFFFE)] = true := by decide

theorem test_sext32_vectors : allGive .sext32
    [(0x80000000, 0xDEAD, 0xFFFFFFFF80000000),
     (0x7FFFFFFF, 0xDEAD, 0x000000007FFFFFFF),
     (0xFFFFFFFF7FFFFFFF, 0xDEAD, 0x000000007FFFFFFF),
     (0xFFFFFFFF, 0xDEAD, 0xFFFFFFFFFFFFFFFF),
     (0x0000000100000000, 0xDEAD, 0x0000000000000000),
     (0x00000000FFFFFFFF, 0, 0xFFFFFFFFFFFFFFFF)] = true := by decide

theorem test_copysignF32_vectors : allGive .copysignF32
    [(0x00000000, 0x80000000, 0x0000000080000000),
     (0x80000000, 0x00000000, 0x0000000000000000),
     (0x7F800000, 0xBF800000, 0x00000000FF800000),
     (0x7FC00001, 0xFFC00000, 0x00000000FFC00001),
     (0x40A00000, 0xFFFFFFFF00000000, 0x0000000040A00000),
     (0x40A00000, 0x80000000, 0x00000000C0A00000)] = true := by decide

theorem test_copysignF64_vectors : allGive .copysignF64
    [(0x4014000000000000, 0x8000000000000000, 0xC014000000000000),
     (0x7FF8000000000000, 0x8000000000000000, 0xFFF8000000000000),
     (0x0000000000000001, 0xFFF8000000000000, 0x8000000000000001),
     (0xC014000000000000, 0x0, 0x4014000000000000),
     (0xC014000000000000, 0x0000000000000000, 0x4014000000000000)] = true := by decide

theorem test_truncsatS32F32_vectors : allGive .truncsatS32F32
    [(0x80000000, 0, 0x00000000),
     (0x00000001, 0, 0x00000000),
     (0xBF7FFFFF, 0, 0x00000000),
     (0xBFC00000, 0, 0xFFFFFFFF),
     (0x42F78000, 0, 0x0000007B),
     (0x4EFFFFFF, 0, 0x7FFFFF80),
     (0x4F000000, 0, 0x7FFFFFFF),
     (0xCF000000, 0, 0x80000000),
     (0xCF000001, 0, 0x80000000),
     (0x4F7FFFFF, 0, 0x7FFFFFFF),
     (0x4F800000, 0, 0x7FFFFFFF),
     (0x5EFFFFFF, 0, 0x7FFFFFFF),
     (0x5F000000, 0, 0x7FFFFFFF),
     (0xDF000000, 0, 0x80000000),
     (0xDF000001, 0, 0x80000000),
     (0x5F7FFFFF, 0, 0x7FFFFFFF),
     (0x5F800000, 0, 0x7FFFFFFF),
     (0x7F800000, 0, 0x7FFFFFFF),
     (0xFF800000, 0, 0x80000000),
     (0xFFC00000, 0, 0x00000000),
     (0x7F800001, 0, 0x00000000),
     (0xFFFFFFFF3FC00000, 0, 0x0000000000000001)] = true := by decide

theorem test_truncsatS32F64_vectors : allGive .truncsatS32F64
    [(0x8000000000000000, 0, 0x00000000),
     (0x0000000000000001, 0, 0x00000000),
     (0xBFEFFFFFFFFFFFFF, 0, 0x00000000),
     (0xC00FEB851EB851EC, 0, 0xFFFFFFFD),
     (0x41DFFFFFFFE00000, 0, 0x7FFFFFFF),
     (0x41E0000000000000, 0, 0x7FFFFFFF),
     (0xC1E0000000000000, 0, 0x80000000),
     (0xC1E0000000180000, 0, 0x80000000),
     (0xC1E0000000200000, 0, 0x80000000),
     (0x41EFFFFFFFE00000, 0, 0x7FFFFFFF),
     (0x41F0000000000000, 0, 0x7FFFFFFF),
     (0x43DFFFFFFFFFFFFF, 0, 0x7FFFFFFF),
     (0x43E0000000000000, 0, 0x7FFFFFFF),
     (0xC3E0000000000000, 0, 0x80000000),
     (0xC3E0000000000001, 0, 0x80000000),
     (0x43EFFFFFFFFFFFFF, 0, 0x7FFFFFFF),
     (0x43F0000000000000, 0, 0x7FFFFFFF),
     (0x7FF0000000000000, 0, 0x7FFFFFFF),
     (0xFFF0000000000000, 0, 0x80000000),
     (0xFFF8000000000000, 0, 0x00000000),
     (0x7FF0000000000001, 0, 0x00000000)] = true := by decide +kernel

theorem test_truncsatU32F32_vectors : allGive .truncsatU32F32
    [(0x80000000, 0, 0x00000000),
     (0x00000001, 0, 0x00000000),
     (0xBF7FFFFF, 0, 0x00000000),
     (0xBFC00000, 0, 0x00000000),
     (0x42F78000, 0, 0x0000007B),
     (0x42F78000, 0, 0x000000000000007B),
     (0x4EFFFFFF, 0, 0x7FFFFF80),
     (0x4F000000, 0, 0x80000000),
     (0xCF000000, 0, 0x00000000),
     (0xCF000001, 0, 0x00000000),
     (0x4F7FFFFF, 0, 0xFFFFFF00),
     (0x4F800000, 0, 0xFFFFFFFF),
     (0x5EFFFFFF, 0, 0xFFFFFFFF),
     (0x5F000000, 0, 0xFFFFFFFF),
     (0xDF000000, 0, 0x00000000),
     (0xDF000001, 0, 0x00000000),
     (0x5F7FFFFF, 0, 0xFFFFFFFF),
     (0x5F800000, 0, 0xFFFFFFFF),
     (0x7F800000, 0, 0xFFFFFFFF),
     (0xFF800000, 0, 0x00000000),
     (0xFFC00000, 0, 0x00000000),
     (0x7F800001, 0, 0x00000000)] = true := by decide

theorem test_truncsatU32F64_vectors : allGive .truncsatU32F64
    [(0x8000000000000000, 0, 0x00000000),
     (0x0000000000000001, 0, 0x00000000),
     (0xBFEFFFFFFFFFFFFF, 0, 0x00000000),
     (0xC00FEB851EB851EC, 0, 0x00000000),
     (0x41DFFFFFFFE00000, 0, 0x7FFFFFFF),
     (0x41E0000000000000, 0, 0x80000000),
     (0xC1E0000000000000, 0, 0x00000000),
     (0xC1E0000000180000, 0, 0x00000000),
     (0xC1E0000000200000, 0, 0x00000000),
     (0x41EFFFFFFFE00000, 0, 0xFFFFFFFF),
     (0x41F0000000000000, 0, 0xFFFFFFFF),
     (0x41F0000000000000, 0, 0x00000000FFFFFFFF),
     (0x43DFFFFFFFFFFFFF, 0, 0xFFFFFFFF),
     (0x43E0000000000000, 0, 0xFFFFFFFF),
     (0xC3E0000000000000, 0, 0x00000000),
     (0xC3E0000000000001, 0, 0x00000000),
     (0x43EFFFFFFFFFFFFF, 0, 0xFFFFFFFF),
     (0x43F0000000000000, 0, 0xFFFFFFFF),
     (0x7FF0000000000000, 0, 0xFFFFFFFF),
     (0xFFF0000000000000, 0, 0x00000000),
     (0xFFF8000000000000, 0, 0x00000000),
     (0x7FF0000000000001, 0, 0x00000000)] = true := by decide +kernel

theorem test_truncsatS64F32_vectors : allGive .truncsatS64F32
    [(0x80000000, 0, 0x0000000000000000),
     (0x00000001, 0, 0x0000000000000000),
     (0xBF7FFFFF, 0, 0x0000000000000000),
     (0xBFC00000, 0, 0xFFFFFFFFFFFFFFFF),
     (0x42F78000, 0, 0x000000000000007B),
     (0x4EFFFFFF, 0, 0x000000007FFFFF80),
     (0x4F000000, 0, 0x0000000080000000),
     (0xCF000000, 0, 0xFFFFFFFF80000000),
     (0xCF000001, 0, 0xFFFFFFFF7FFFFF00),
     (0x4F7FFFFF, 0, 0x00000000FFFFFF00),
     (0x4F800000, 0, 0x0000000100000000),
     (0x5EFFFFFF, 0, 0x7FFFFF8000000000),
     (0x5F000000, 0, 0x7FFFFFFFFFFFFFFF),
     (0xDF000000, 0, 0x8000000000000000),
     (0xDF000001, 0, 0x8000000000000000),
     (0x5F7FFFFF, 0, 0x7FFFFFFFFFFFFFFF),
     (0x5F800000, 0, 0x7FFFFFFFFFFFFFFF),
     (0x7F800000, 0, 0x7FFFFFFFFFFFFFFF),
     (0xFF800000, 0, 0x8000000000000000),
     (0xFFC00000, 0, 0x0000000000000000),
     (0x7F800001, 0, 0x0000000000000000)] = true := by decide

theorem test_truncsatS64F64_vectors : allGive .truncsatS64F64
    [(0x8000000000000000, 0, 0x0000000000000000),
     (0x0000000000000001, 0, 0x0000000000000000),
     (0xBFEFFFFFFFFFFFFF, 0, 0x0000000000000000),
     (0xC00FEB851EB851EC, 0, 0xFFFFFFFFFFFFFFFD),
     (0x41DFFFFFFFE00000, 0, 0x000000007FFFFFFF),
     (0x41E0000000000000, 0, 0x0000000080000000),
     (0xC1E0000000000000, 0, 0xFFFFFFFF80000000),
     (0xC1E0000000180000, 0, 0xFFFFFFFF80000000),
     (0xC1E0000000200000, 0, 0xFFFFFFFF7FFFFFFF),
     (0x41EFFFFFFFE00000, 0, 0x00000000FFFFFFFF),
     (0x41F0000000000000, 0, 0x0000000100000000),
     (0x43DFFFFFFFFFFFFF, 0, 0x7FFFFFFFFFFFFC00),
     (0x43E0000000000000, 0, 0x7FFFFFFFFFFFFFFF),
     (0xC3E0000000000000, 0, 0x8000000000000000),
     (0xC3E0000000000001, 0, 0x8000000000000000),
     (0x43EFFFFFFFFFFFFF, 0, 0x7FFFFFFFFFFFFFFF),
     (0x43F0000000000000, 0, 0x7FFFFFFFFFFFFFFF),
     (0x7FF0000000000000, 0, 0x7FFFFFFFFFFFFFFF),
     (0xFFF0000000000000, 0, 0x8000000000000000),
     (0xFFF8000000000000, 0, 0x0000000000000000),
     (0x7FF0000000000001, 0, 0x0000000000000000)] = true := by decide +kernel

theorem test_truncsatU64F32_vectors : allGive .truncsatU64F32
    [(0x80000000, 0, 0x0000000000000000),
     (0x00000001, 0, 0x0000000000000000),
     (0xBF7FFFFF, 0, 0x0000000000000000),
     (0xBFC00000, 0, 0x0000000000000000),
     (0x42F78000, 0, 0x000000000000007B),
     (0x4EFFFFFF, 0, 0x000000007FFFFF80),
     (0x4F000000, 0, 0x0000000080000000),
     (0xCF000000, 0, 0x0000000000000000),
     (0xCF000001, 0, 0x0000000000000000),
     (0x4F7FFFFF, 0, 0x00000000FFFFFF00),
     (0x4F800000, 0, 0x0000000100000000),
     (0x5EFFFFFF, 0, 0x7FFFFF8000000000),
     (0x5F000000, 0, 0x8000000000000000),
     (0xDF000000, 0, 0x0000000000000000),
     (0xDF000001, 0, 0x0000000000000000),
     (0x5F7FFFFF, 0, 0xFFFFFF0000000000),
     (0x5F800000, 0, 0xFFFFFFFFFFFFFFFF),
     (0x7F800000, 0, 0xFFFFFFFFFFFFFFFF),
     (0xFF800000, 0, 0x0000000000000000),
     (0xFFC00000, 0, 0x0000000000000000),
     (0x7F800001, 0, 0x0000000000000000)] = true := by decide

theorem test_truncsatU64F64_vectors : allGive .truncsatU64F64
    [(0x8000000000000000, 0, 0x0000000000000000),
     (0x0000000000000001, 0, 0x0000000000000000),
     (0xBFEFFFFFFFFFFFFF, 0, 0x0000000000000000),
     (0xC00FEB851EB851EC, 0, 0x0000000000000000),
     (0x41DFFFFFFFE00000, 0, 0x000000007FFFFFFF),
     (0x41E0000000000000, 0, 0x0000000080000000),
     (0xC1E0000000000000, 0, 0x0000000000000000),
     (0xC1E0000000180000, 0, 0x0000000000000000),
     (0xC1E0000000200000, 0, 0x0000000000000000),
     (0x41EFFFFFFFE00000, 0, 0x00000000FFFFFFFF),
     (0x41F0000000000000, 0, 0x0000000100000000),
     (0x43DFFFFFFFFFFFFF, 0, 0x7FFFFFFFFFFFFC00),
     (0x43E0000000000000, 0, 0x8000000000000000),
     (0xC3E0000000000000, 0, 0x0000000000000000),
     (0xC3E0000000000001, 0, 0x0000000000000000),
     (0x43EFFFFFFFFFFFFF, 0, 0xFFFFFFFFFFFFF800),
     (0x43F0000000000000, 0, 0xFFFFFFFFFFFFFFFF),
     (0x7FF0000000000000, 0, 0xFFFFFFFFFFFFFFFF),
     (0xFFF0000000000000, 0, 0x0000000000000000),
     (0xFFF8000000000000, 0, 0x0000000000000000),
     (0x7FF0000000000001, 0, 0x0000000000000000)] = true := by decide +kernel

/-- The "S after" column of spec/95_test_vectors.md section 2.4, over a buffer with some bytes written. -/
theorem test_castI32F32_scratch : gives (.castI32F32 0xFFFFFFFF7FC00001 0xDEAD) 0x000000007FC00001
    [(0, 0x01), (1, 0x00), (2, 0xC0), (3, 0x7F), (4, 0x1D), (7, 0x44)] = true := by decide

theorem test_castF32I32_scratch : gives (.castF32I32 0x7FA00001 0) 0x000000007FA00001
    [(0, 0x01), (1, 0x00), (2, 0xA0), (3, 0x7F), (4, 0x1D), (7, 0x44)] = true := by decide

theorem test_castI64F64_scratch : gives (.castI64F64 0x7FF0000000000001 0) 0x7FF0000000000001
    [(0, 0x01), (1, 0x00), (2, 0x00), (3, 0x00), (4, 0x00), (5, 0x00), (6, 0xF0), (7, 0x7F)] = true := by
  decide

theorem test_castF64I64_scratch : gives (.castF64I64 0x4415AF1D78B58C40 0) 0x4415AF1D78B58C40
    [(0, 0x40), (1, 0x8C), (2, 0xB5), (3, 0x78), (4, 0x1D), (5, 0xAF), (6, 0x15), (7, 0x44)] = true := by
  decide

theorem test_castS64U64_scratch : gives (.castS64U64 0xFFFFFFFFFFFFFFEF 0) 0xFFFFFFFFFFFFFFEF
    [(0, 0xEF), (1, 0xFF), (2, 0xFF), (3, 0xFF), (4, 0xFF), (5, 0xFF), (6, 0xFF), (7, 0xFF)] = true := by
  decide

/-! ### Steps -/

/-- `base` with one command waiting. -/
def waiting (c : Command) : State := { base with inputs := [.command c] }

/-- `base` with one reset waiting. -/
def resetting (cut : Option Command) : State := { base with inputs := [.reset cut] }

/-- The written bytes of `S`, the answers and the number of waiting inputs after a step, if it answers a next state. -/
def after (s : State) : Option (Memory × List Answer × Nat) :=
  match step s with
  | .next t => some (t.scratch, t.answers, t.inputs.length)
  | _ => none

/-- Program 3, line t4 of spec/95_test_vectors.md: a reserved `op` is answered, and nothing changes. -/
theorem test_step_reserved : after (waiting ⟨0xC0, 0xC014000000000000, 0⟩) =
    some (base.scratch, [⟨7, false⟩, ⟨0, true⟩], 0) := by decide

theorem test_step_legal : after (waiting ⟨0xA1, 0xC014000000000000, 0⟩) =
    some (base.scratch, [⟨7, false⟩, ⟨0x00000000FFFFFFFB, false⟩], 0) := by decide

theorem test_step_reset : after (resetting (some ⟨0x62, 1, 2⟩)) = some ([], [⟨7, false⟩], 0) := by decide

theorem test_step_idle : after State.reset = some ([], [], 0) := by decide

/-- The first step after reset runs a command that is presented then. -/
theorem test_first_step : after (State.reset.withFetchWord 8 0x03) = some ([], [⟨0x20, false⟩], 0) := by
  decide

theorem test_table_word_operands : commandOfTableWord 136 ((0x24 <<< 72) ||| (0x12345678 <<< 8) ||| 0x01) =
    ⟨0x01, 0x12345678, 0x24⟩ := by decide

theorem test_memory_access_beyond_the_buffer :
    memWrite 5 4 0 base = .error (.noSuchOffset 5 4) ∧ memRead 8 1 base = .error (.noSuchOffset 8 1) := ⟨rfl, rfl⟩

/-! ### Text: lines of the programs of spec/95_test_vectors.md part 3 -/

theorem test_parse_two_operands : parseLine "t5: ROTL64 0x0000000000F00000, 0x2C".toList =
    some ⟨some 5, 0x20, .lit 0xF00000, .lit 0x2C⟩ := by decide

theorem test_parse_reference : parseLine "copysign.f64 0x4014000000000000, t1".toList =
    some ⟨none, 0x81, .lit 0x4014000000000000, .answerOf 1⟩ := by decide

theorem test_parse_refuses : parseLine "CLZ64 0x1, 0x2".toList = none ∧ parseLine "ROTL32 0x1".toList = none ∧
    parseLine "CLZ64 0x11112222333344445".toList = none ∧ parseLine "ADD 0x1, 0x2".toList = none := by decide

/-- Program 3, lines t1 and t2: the answer of one line is the operand of the next. -/
theorem test_caller_routes : (match runLines [⟨some 1, 0x40, .lit 0x1234567890ABCDEF, .lit 0⟩, ⟨some 2, 0x64, .answerOf 1, .lit 0⟩]
      [] State.reset with
    | some (.next t) => decide (t.answers = [⟨0xFFFFFFFFFFFFFFEF, false⟩, ⟨0xFFFFFFFFFFFFFFEF, false⟩])
    | _ => false) = true := by decide

/-- Two lines of one label, the later answered `ILLEGAL`: a reference to the label has no value (log entry 12). -/
theorem test_caller_drops_the_label_of_an_illegal_answer :
    runLines [⟨some 1, 0x02, .lit 1, .lit 0⟩, ⟨some 1, 0xC0, .lit 1, .lit 0⟩, ⟨none, 0x64, .answerOf 1, .lit 0⟩]
      [] State.reset = none := by decide

/-! ### Witnesses: a concrete state and operands that meet every hypothesis of each statement -/

theorem witness_DecodeAndEncodeAgree : decode ⟨0xA7, 5, 6⟩ = .instr (.truncsatU64F64 5 6) := by decide

theorem witness_OpcodeMapIsExactlyTheTables : ∀ op ∈ [0x05, 0x1F, 0x25, 0x3F, 0x43, 0x5F, 0x65, 0x7F, 0x82, 0x9F, 0xA8, 0xFF],
    (0x05 ≤ op ∧ op ≤ 0x1F) ∨ (0x25 ≤ op ∧ op ≤ 0x3F) ∨ (0x43 ≤ op ∧ op ≤ 0x5F) ∨ (0x65 ≤ op ∧ op ≤ 0x7F) ∨
      (0x82 ≤ op ∧ op ≤ 0x9F) ∨ (0xA8 ≤ op ∧ op ≤ 0xFF) := by decide

theorem witness_EveryMnemonicNamesOneOp : (⟨"CLZ32".toList, 0x02, false⟩ : MnemonicRow) ∈ mnemonics ∧
    (⟨"TRUNCSAT.U64.F64".toList, 0xA7, false⟩ : MnemonicRow) ∈ mnemonics := by decide

/-- Both clauses, at 1 and 16 digits, and at 0 and 17. -/
theorem witness_LiteralIsItsHexadecimalValue : (∀ d ∈ List.replicate 17 15, d < 16) ∧
    List.Forall₂ (fun d c => c = Nat.digitChar d ∨ c = (Nat.digitChar d).toUpper) [15, 10, 7] "Fa7".toList ∧
    parseLiteral "0xf".toList = some 0xF ∧ parseLiteral "0xFEDCBA9876543210".toList = some 0xFEDCBA9876543210 ∧
    parseLiteral "0x".toList = none ∧ parseLiteral "0x00000000000000001".toList = none ∧
    parseLiteral "0xFFFFFFFFFFFFFFFFF".toList = none := by decide

theorem witness_ResetLeavesTheUnitIdle : (waiting ⟨0x02, 1, 0⟩).inputs = [.command ⟨0x02, 1, 0⟩] := rfl

theorem witness_IdleUnitDoesNotMove : State.reset.inputs = [] := rfl

theorem witness_StepRunsTheDecodedCommand : (waiting ⟨0x02, 1, 0⟩).inputs = [.command ⟨0x02, 1, 0⟩] ∧
    decode ⟨0x02, 1, 0⟩ = .instr (.clz32 1 0) ∧ decodeTableWord 8 0x02 = some (.clz32 0 0) := by decide

/-- Every range of the statement, at both ends. -/
theorem witness_ReservedOpIsAnsweredIllegal :
    ∀ op ∈ [0x05#8, 0x1F#8, 0x25#8, 0x3F#8, 0x43#8, 0x5F#8, 0x65#8, 0x7F#8, 0x82#8, 0x9F#8, 0xA8#8, 0xBF#8, 0xC0#8, 0xFF#8],
      (waiting ⟨op, 1, 2⟩).inputs = [.command ⟨op, 1, 2⟩] ∧ isReservedOp op = true := by decide

theorem witness_ResetInputCutsTheCommand : (resetting (some ⟨0x60, 1, 2⟩)).inputs = [.reset (some ⟨0x60, 1, 2⟩)] := rfl

/-- A command, a reset and nothing. -/
theorem witness_EachCommandIsAnsweredOnce : after (waiting ⟨0x02, 1, 0⟩) = some (base.scratch, [⟨7, false⟩, ⟨31, false⟩], 0) ∧
    (∀ c rest, (resetting none).inputs ≠ .command c :: rest) ∧ (∀ c rest, State.reset.inputs ≠ .command c :: rest) :=
  ⟨by decide, by simp [resetting], by simp [State.reset]⟩

theorem witness_LegalOpsNeverRaiseIllegal : (waiting ⟨0xA7, 1, 2⟩).inputs = [.command ⟨0xA7, 1, 2⟩] ∧
    (waiting ⟨0xA8, 1, 2⟩).inputs = [.command ⟨0xA8, 1, 2⟩] := ⟨rfl, rfl⟩

/-- Two states that differ in what `S` holds. -/
theorem witness_AnswerIsAFunctionOfTheCommand : (waiting ⟨0x60, 1, 2⟩).inputs = [.command ⟨0x60, 1, 2⟩] ∧
    (present ⟨0x60, 1, 2⟩ State.reset).inputs = [.command ⟨0x60, 1, 2⟩] ∧
    (waiting ⟨0x60, 1, 2⟩).scratch ≠ (present ⟨0x60, 1, 2⟩ State.reset).scratch := by decide

/-- Each clause, with operands that differ in the bits it lets differ. -/
theorem witness_IgnoredOperandBitsHaveNoEffect :
    (0xFFFFFFFF00000001 % 2 ^ 32 = 1 % 2 ^ 32 ∧ 0x20 % 32 = 0 % 32) ∧ (0x100000000 % 2 ^ 32 = 0 % 2 ^ 32) ∧
    (0x40 % 64 = 0 % 64) ∧ (0x180 % 2 ^ 8 = 0x80 % 2 ^ 8) ∧ (0x18000 % 2 ^ 16 = 0x8000 % 2 ^ 16) ∧
    after (waiting ⟨0x00, 0xFFFFFFFF00000001, 0x21⟩) = after (waiting ⟨0x00, 1, 1⟩) ∧
    after (waiting ⟨0x80, 0xFFFFFFFF00000001, 0xFFFFFFFF80000000⟩) = after (waiting ⟨0x80, 1, 0x80000000⟩) := by
  decide

/-- Each clause at the ends of its range. -/
theorem witness_OnlyBitcastsWriteScratch :
    after (waiting ⟨0x5F, 1, 2⟩) = some (base.scratch, [⟨7, false⟩, ⟨0, true⟩], 0) ∧
    after (waiting ⟨0x60, 0x3F800000, 2⟩) =
      some ([(0, 0x00), (1, 0x00), (2, 0x80), (3, 0x3F), (4, 0x1D), (7, 0x44)], [⟨7, false⟩, ⟨0x3F800000, false⟩], 0) ∧
    ((after (waiting ⟨0x64, 1, 2⟩)).map fun x => x.1.length) = some 8 ∧
    after (waiting ⟨0x65, 1, 2⟩) = some (base.scratch, [⟨7, false⟩, ⟨0, true⟩], 0) := by decide

theorem witness_EveryStepKeepsTheInvariant : (waiting ⟨0x62, 1, 2⟩).Inv ∧ (∃ t, step (waiting ⟨0x62, 1, 2⟩) = .next t) ∧
    ∃ t, exec (.castI64F64 1 2) base = .next t :=
  ⟨show Memory.wf _ by decide, ⟨_, (step_instr rfl rfl).trans (exec_next _ _)⟩, ⟨_, exec_next _ _⟩⟩

theorem witness_RunAnswersEveryCommandInOrder : (waiting ⟨0x02, 1, 0⟩).inputs = [⟨0x02, 1, 0⟩].map .command ++ [] := rfl

/-- Each clause at the ends of its range: the whole buffer, no byte at its end, and one byte beyond. -/
theorem witness_ScratchReadsBackWhatWasWritten : 0 + 8 ≤ 8 ∧ 8 + 0 ≤ 8 ∧ 8 < 8 + 1 ∧
    (memRead 8 0 base).toOption = some 0 := by decide

theorem witness_InstancesShareNothing : (1 : Nat) ≠ 0 ∧ [base, State.reset][0]? = some base :=
  ⟨by decide, rfl⟩

theorem witness_SystemResetHoldsEveryInstance : 0 < Config.nInst := Nat.succ_pos _

/-- Both clauses: a spelling of a mnemonic, and a word that is none. -/
theorem witness_MnemonicsAreCaseInsensitive : (⟨"CLZ32".toList, 0x02, false⟩ : MnemonicRow) ∈ mnemonics ∧
    List.Forall₂ (fun w c => w = c ∨ w = c.toLower) "cLz32".toList "CLZ32".toList ∧
    (∀ r ∈ mnemonics, ¬ List.Forall₂ (fun w c => w = c ∨ w = c.toLower) "clz33".toList r.name) := by decide

/-- A rotate answers something for the round trips to start from. -/
theorem witness_rotates_answer : AnswersOnly (.rotl32 0xDEADBEEF 0x28) base 0xADBEEFDE ∧
    AnswersOnly (.rotl64 0x8000000000000000 1) base 1 := by
  constructor <;> exact congrArg Host.Outcome.next (by decide)

/-- Counts below the width, so that the clause about the next bit is met. -/
theorem witness_counts_below_the_width : clz (1 : Word32) = 31 ∧ ctz (0x80000000 : Word32) = 31 ∧
    clz (1 : Word64) = 63 ∧ ctz (0x8000000000000000 : Word64) = 63 := by decide

/-- A binary32 NaN, both infinities, and the largest and smallest finite patterns: each clause of the truncations. -/
theorem witness_truncations_of_binary32 : isNaN32 0x7F800001 ∧ isNaN32 0xFFFFFFFF ∧ isInf32 0x7F800000 ∧
    isInf32 0xFF800000 ∧ ¬ allOnes32 0x7F7FFFFF ∧ ¬ allOnes32 0 := by decide

/-- A binary64 NaN, both infinities, and the largest and smallest finite patterns: each clause of the truncations. -/
theorem witness_truncations_of_binary64 : isNaN64 0x7FF0000000000001 ∧ isNaN64 0xFFFFFFFFFFFFFFFF ∧
    isInf64 0x7FF0000000000000 ∧ isInf64 0xFFF0000000000000 ∧ ¬ allOnes64 0x7FEFFFFFFFFFFFFF ∧ ¬ allOnes64 0 := by
  decide

/-- Equal operands of a copysign, a NaN. -/
theorem witness_copysigns_of_equal_operands : gives (.copysignF64 0xFFF8000000000001 0xFFF8000000000001)
    0xFFF8000000000001 base.scratch = true := by decide

end Sys2Proof.Tests
end

section
/-! PROOF. What a write and a read of the scratch buffer give, byte by byte (spec/00_scope.md R17), and O20 from it. -/

namespace Sys2Proof.Machine

theorem scratchByte_putBytes_inside (s : State) (off : Nat) (v : Word64) {n i : Nat} (hi : i < n) :
    scratchByte (s.setScratch (Memory.putBytes off v n s.scratch)) (off + i) = v.extractLsb' (8 * i) 8 := by
  rw [scratchByte_setScratch_putBytes, if_pos (by omega), Nat.add_sub_cancel_left]

theorem scratchByte_putBytes_outside (s : State) {off k n : Nat} (v : Word64) (hk : k < off ∨ off + n ≤ k) :
    scratchByte (s.setScratch (Memory.putBytes off v n s.scratch)) k = scratchByte s k := by
  rw [scratchByte_setScratch_putBytes, if_neg (by omega)]

theorem extractLsb'_bytesAt (s : State) (off : Nat) {n i : Nat} (hn : n ≤ 8) (hi : i < n) :
    (bytesAt s off n).extractLsb' (8 * i) 8 = scratchByte s (off + i) := by
  apply BitVec.eq_of_getLsbD_eq
  intro j hj
  have hlt : 8 * i + j < 8 * n := by omega
  have hdiv : (8 * i + j) / 8 = i := by omega
  have hmod : (8 * i + j) % 8 = j := by omega
  simp [getLsbD_bytesAt _ _ _ _ hn, hj, hlt, hdiv, hmod]

theorem bytesAt_toNat_lt (s : State) (off : Nat) {n : Nat} (hn : n ≤ 8) :
    (bytesAt s off n).toNat < 2 ^ (8 * n) := by
  apply Nat.lt_pow_two_of_testBit
  intro i hi
  rw [BitVec.testBit_toNat, getLsbD_bytesAt _ _ _ _ hn, decide_eq_false (by omega), Bool.false_and]

/-- A read right after a write of the same bytes gives the low `n` bytes of what was written, as a number. -/
theorem bytesAt_putBytes_eq_mod (s : State) (off : Nat) {n : Nat} (v : Word64) (hn : n ≤ 8) :
    bytesAt (s.setScratch (Memory.putBytes off v n s.scratch)) off n =
      BitVec.ofNat 64 (v.toNat % 2 ^ (8 * n)) := by
  rw [bytesAt_putBytes s off n v hn]
  apply BitVec.eq_of_toNat_eq
  simp only [BitVec.toNat_setWidth, BitVec.toNat_ofNat]

/-- Settles O20: inside the buffer both primitives have one form, whose bytes the laws above give; beyond it both are
the fault. -/
theorem scratchReadsBackWhatWasWritten : Obligations.ScratchReadsBackWhatWasWritten := by
  intro off n v s
  refine ⟨fun inside => ?_, fun beyond => ?_⟩
  · have hn : n ≤ 8 := by omega
    refine ⟨⟨_, memWrite_inside inside v s, rfl, rfl, rfl, rfl, ?bytes, ?frame, ?readBack⟩,
      ⟨_, memRead_inside inside s, ?readBytes, bytesAt_toNat_lt s off hn⟩⟩
    case bytes => exact fun i hi => scratchByte_putBytes_inside s off v hi
    case frame => exact fun k hk => scratchByte_putBytes_outside s v hk
    case readBack => rw [memRead_inside inside, bytesAt_putBytes_eq_mod s off v hn]
    case readBytes => exact fun i hi => extractLsb'_bytesAt s off hn hi
  · simp [memWrite_outside beyond v s, memRead_outside beyond s]

end Sys2Proof.Machine
end

section
/-! PROOF. Everything a step does, as one function of the state: the state that follows, whatever input is the oldest.
From it the invariant (O17, O18), the answers (O6, O10, O14, O19) and what is written to `S` (O16). -/

namespace Sys2Proof.Machine

/-- The written bytes of `S` after a decoded command: an instruction's, or for a reserved `op` those of before (R192). -/
def scratchAfterDecoded (m : Memory) : Decoded → Memory
  | .instr i => scratchAfter i m
  | .reserved _ => m

/-- The state after a command, from the one that has taken it: `S` written and the answer of R35 given. -/
def afterCommand (c : Command) (s : State) : State :=
  (s.setScratch (scratchAfterDecoded s.scratch (decode c))).addAnswer (responseTo c)

/-- The state after a step, by its oldest input: none, a reset or a command. -/
def successor (s : State) : State :=
  match s.inputs with
  | [] => s
  | .reset _ :: rest => { s with scratch := [], resets := s.resets + 1, inputs := rest }
  | .command c :: rest => afterCommand c (s.setInputs rest)

theorem step_command {s : State} {c : Command} {rest : List Input} (h : s.inputs = .command c :: rest) :
    step s = .next (afterCommand c (s.setInputs rest)) := by
  cases hd : decode c with
  | instr i =>
    rw [step_instr h hd, exec_next, afterCommand, responseTo, hd]
    rfl
  | reserved why =>
    rw [step_reserved h hd, raiseIllegalOp_next, afterCommand, responseTo, hd]
    rfl

theorem step_eq_next_successor (s : State) : step s = .next (successor s) := by
  unfold successor
  split
  · next h => exact step_idle h
  · next h => exact step_reset h
  · next h => exact step_command h

@[simp] theorem afterCommand_answers (c : Command) (s : State) :
    (afterCommand c s).answers = s.answers ++ [responseTo c] := rfl
@[simp] theorem afterCommand_inputs (c : Command) (s : State) : (afterCommand c s).inputs = s.inputs := rfl
@[simp] theorem afterCommand_unit (c : Command) (s : State) : (afterCommand c s).unit = s.unit := rfl
@[simp] theorem afterCommand_resets (c : Command) (s : State) : (afterCommand c s).resets = s.resets := rfl
@[simp] theorem afterCommand_scratch (c : Command) (s : State) :
    (afterCommand c s).scratch = scratchAfterDecoded s.scratch (decode c) := rfl

end Sys2Proof.Machine
end

section
/-! PROOF. The canonical form of the scratch buffer at reset and after every step and instruction (O17, O18). -/

namespace Sys2Proof.Machine

theorem inv_of_scratch_eq_nil {s : State} (h : s.scratch = []) : s.Inv := by
  rw [State.Inv, h]
  exact ⟨.nil, by simp⟩

theorem scratchAfterDecoded_wf {m : Memory} (h : Memory.wf m) (d : Decoded) :
    Memory.wf (scratchAfterDecoded m d) := by
  cases d with
  | instr i => exact scratchAfter_wf i h
  | reserved why => exact h

theorem successor_inv {s : State} (h : s.Inv) : (successor s).Inv := by
  unfold successor
  split
  case h_1 => exact h
  case h_2 => exact inv_of_scratch_eq_nil rfl
  case h_3 c rest _ => exact scratchAfterDecoded_wf h (decode c)

theorem step_inv {s t : State} (h : s.Inv) (hs : step s = .next t) : t.Inv := by
  rw [step_eq_next_successor] at hs
  exact Host.Outcome.next.inj hs ▸ successor_inv h

theorem exec_inv {i : Instr} {s t : State} (h : s.Inv) (hs : exec i s = .next t) : t.Inv := by
  rw [exec_next] at hs
  exact Host.Outcome.next.inj hs ▸ scratchAfter_wf i h

/-- Settles O17: right after reset no byte is written. -/
theorem resetHasTheInvariant : Obligations.ResetHasTheInvariant :=
  ⟨inv_of_scratch_eq_nil rfl, fun k => inv_of_scratch_eq_nil (resetOf_scratch k)⟩

/-- Settles O18: an idle step keeps `S`, a reset empties the list, and a command writes at most one lane, which keeps
offsets rising and below 8. -/
theorem everyStepKeepsTheInvariant : Obligations.EveryStepKeepsTheInvariant :=
  ⟨fun _ _ => step_inv, fun _ _ _ => exec_inv⟩

end Sys2Proof.Machine
end

section
/-! PROOF. The answers of a step and of a run, and resets (O6, O10, O14, O19). -/

namespace Sys2Proof.Machine

theorem scratchByte_of_scratch_eq_nil {s : State} (h : s.scratch = []) (off : Nat) :
    scratchByte s off = Config.scratchAtReset s.unit s.resets off := by
  rw [scratchByte, h]
  rfl

theorem present_inputs (c : Command) (s : State) : (present c s).inputs = s.inputs ++ [.command c] := rfl

theorem step_command_answers {s : State} {c : Command} {rest : List Input} (h : s.inputs = .command c :: rest) :
    ∃ t, step s = .next t ∧ t.answers = s.answers ++ [responseTo c] :=
  ⟨_, step_command h, rfl⟩

/-- Settles O6: no byte is written and nothing waits at reset, and both steps give the answer of the model without `S`. -/
theorem resetLeavesTheUnitIdle : Obligations.ResetLeavesTheUnitIdle := by
  refine ⟨scratchByte_of_scratch_eq_nil rfl, rfl, step_idle rfl, fun c s rest h => ?_⟩
  obtain ⟨t, ht, answers⟩ := step_command_answers (present_inputs c State.reset)
  obtain ⟨t', ht', answers'⟩ := step_command_answers h
  exact ⟨responseTo c, t, t', ht, answers, ht', answers'⟩

/-- Settles O10: a reset forgets the written bytes, counts itself and adds no answer. -/
theorem resetInputCutsTheCommand : Obligations.ResetInputCutsTheCommand := fun s _ _ h =>
  ⟨_, step_reset h, rfl, Nat.lt_succ_self s.resets, scratchByte_of_scratch_eq_nil rfl⟩

/-- Settles O14: a step on a command gives the answer of the model without `S` from every state. -/
theorem answerIsAFunctionOfTheCommand : Obligations.AnswerIsAFunctionOfTheCommand := by
  intro c s s' rest rest' h h'
  obtain ⟨t, ht, answers⟩ := step_command_answers h
  obtain ⟨t', ht', answers'⟩ := step_command_answers h'
  exact ⟨t, t', ht, ht', answers, answers'⟩

theorem run_succ {M : Host.Core} {s t : M.State} (h : M.step s = .next t) (k : Nat) : M.run (k + 1) s = M.run k t := by
  rw [Host.Core.run, h]

/-- Settles O19, by induction on the list of commands: the first is answered by one step, and the rest run from the state
after it. -/
theorem runAnswersEveryCommandInOrder : Obligations.RunAnswersEveryCommandInOrder := by
  intro cs
  induction cs with
  | nil => exact fun s rest h => ⟨s, rfl, by simp, h, rfl, rfl⟩
  | cons c cs ih =>
    intro s rest h
    have taken := step_command (c := c) h
    obtain ⟨t, run, answers, inputs, unit, resets⟩ :=
      ih (afterCommand c (s.setInputs (cs.map .command ++ rest))) rest rfl
    exact ⟨t, (run_succ (M := Sys2Proof.core) taken _).trans run, by simp [answers], inputs, unit, resets⟩

end Sys2Proof.Machine
end

section
/-! PROOF. Which commands write `S` (O16). An `op` is `32 * G + FN` (spec/30_encoding.md R71); only group 3 holds
instructions that write. -/

namespace Sys2Proof.Machine

theorem op_toNat_eq (op : BitVec 8) : op.toNat = 32 * (opGroup op).toNat + (opFunction op).toNat := by
  simp only [opGroup, opFunction, BitVec.extractLsb'_toNat, Nat.shiftRight_eq_div_pow]
  omega

section OtherGroups
variable (fn : BitVec 5) (a b : Word64) (m : Memory)

theorem scratchAfter_decodeInt32 : scratchAfterDecoded m (decodeInt32 fn a b) = m := by
  unfold decodeInt32; split <;> rfl

theorem scratchAfter_decodeInt64 : scratchAfterDecoded m (decodeInt64 fn a b) = m := by
  unfold decodeInt64; split <;> rfl

theorem scratchAfter_decodeSext64 : scratchAfterDecoded m (decodeSext64 fn a b) = m := by
  unfold decodeSext64; split <;> rfl

theorem scratchAfter_decodeFsign : scratchAfterDecoded m (decodeFsign fn a b) = m := by
  unfold decodeFsign; split <;> rfl

theorem scratchAfter_truncsatOf (d u f : Bool) : scratchAfter (truncsatOf d u f a b) m = m := by
  unfold truncsatOf; split <;> rfl

theorem scratchAfter_decodeTruncsat : scratchAfterDecoded m (decodeTruncsat fn a b) = m := by
  unfold decodeTruncsat
  split
  · exact scratchAfter_truncsatOf a b m _ _ _
  · rfl

theorem scratchAfter_decodeBitcast_of_unused (h : 5 ≤ fn.toNat) :
    scratchAfterDecoded m (decodeBitcast fn a b) = m := by
  unfold decodeBitcast
  split
  case h_6 => rfl
  all_goals omega

end OtherGroups

theorem scratchAfter_decode_of_not_bitcast {op : BitVec 8} (h : op.toNat < 0x60 ∨ 0x64 < op.toNat) (a b : Word64)
    (m : Memory) : scratchAfterDecoded m (decode ⟨op, a, b⟩) = m := by
  have hop := op_toNat_eq op
  rw [decode]
  split
  case h_1 => exact scratchAfter_decodeInt32 ..
  case h_2 => exact scratchAfter_decodeInt64 ..
  case h_3 => exact scratchAfter_decodeSext64 ..
  case h_4 hg => exact scratchAfter_decodeBitcast_of_unused _ a b m (by omega)
  case h_5 => exact scratchAfter_decodeFsign ..
  case h_6 => exact scratchAfter_decodeTruncsat ..
  case h_7 => rfl

theorem scratchAfter_decode_of_bitcast32 {op : BitVec 8} (h : op.toNat = 0x60 ∨ op.toNat = 0x61) (a b : Word64)
    (m : Memory) :
    scratchAfterDecoded m (decode ⟨op, a, b⟩) = Memory.putBytes 0 (result32 (word32 a)) 4 m := by
  obtain rfl | rfl : op = 0x60 ∨ op = 0x61 := h.imp BitVec.eq_of_toNat_eq BitVec.eq_of_toNat_eq
  · rfl
  · rfl

theorem scratchAfter_decode_of_bitcast64 {op : BitVec 8} (h : op.toNat = 0x62 ∨ op.toNat = 0x63 ∨ op.toNat = 0x64)
    (a b : Word64) (m : Memory) : scratchAfterDecoded m (decode ⟨op, a, b⟩) = Memory.putBytes 0 a 8 m := by
  obtain rfl | rfl | rfl : op = 0x62 ∨ op = 0x63 ∨ op = 0x64 :=
    h.imp BitVec.eq_of_toNat_eq (.imp BitVec.eq_of_toNat_eq BitVec.eq_of_toNat_eq)
  · rfl
  · rfl
  · rfl

/-- A write of the first `n` bytes is what reads give below `n`; beyond, they give what they gave. -/
theorem scratchByte_afterCommand_of_lane {c : Command} {s : State} {v : Word64} {n : Nat}
    (h : scratchAfterDecoded s.scratch (decode c) = Memory.putBytes 0 v n s.scratch) (k : Nat) :
    scratchByte (afterCommand c s) k = if k < n then v.extractLsb' (8 * k) 8 else scratchByte s k := by
  rw [afterCommand, h, scratchByte_addAnswer, scratchByte_setScratch_putBytes]
  simp

/-- Settles O16: the legal codes of group 3 write their lane, and no other code decodes to an instruction that
writes. -/
theorem onlyBitcastsWriteScratch : Obligations.OnlyBitcastsWriteScratch := by
  intro s op a b rest h
  refine ⟨_, step_command h, rfl, rfl, fun four k => ?four, fun eight k => ?eight, fun other => ?other⟩
  case four =>
    rw [scratchByte_afterCommand_of_lane (scratchAfter_decode_of_bitcast32 four a b _)]
    split
    · next hk => exact byte_result32_word32 a hk
    · rfl
  case eight => exact scratchByte_afterCommand_of_lane (scratchAfter_decode_of_bitcast64 eight a b _) k
  case other => exact scratchAfter_decode_of_not_bitcast other a b s.scratch

end Sys2Proof.Machine
end

section
/-! PROOF. The units of a system share nothing (O21): a step of one replaces its own entry of the list. -/

namespace Sys2Proof.Machine

theorem stepInstance_eq_modify (k : Nat) (sys : System) : stepInstance k sys = sys.modify k successor := by
  unfold stepInstance
  split
  · next h => rw [List.modify_eq_self (List.getElem?_eq_none_iff.1 h)]
  · next s h =>
    rw [step_eq_next_successor, List.modify_eq_set_getElem?, h]
    rfl

theorem getElem?_stepInstance (k j : Nat) (sys : System) :
    (stepInstance k sys)[j]? = if k = j then sys[j]?.map successor else sys[j]? := by
  rw [stepInstance_eq_modify, List.getElem?_modify]
  split <;> simp

/-- Settles O21: the entries of the list decide it, and a step of the one at `k` maps entry `k` alone. -/
theorem instancesShareNothing : Obligations.InstancesShareNothing := by
  refine ⟨fun k sys => ⟨?length, fun j hj => ?frame, fun s hs => ?own⟩, fun j k sys hjk => ?commute⟩
  case length => rw [stepInstance_eq_modify, List.length_modify]
  case frame => rw [getElem?_stepInstance, if_neg hj.symm]
  case own => exact ⟨successor s, step_eq_next_successor s, by rw [getElem?_stepInstance, if_pos rfl, hs]; rfl⟩
  case commute =>
    apply List.ext_getElem?
    intro i
    simp only [getElem?_stepInstance]
    by_cases hj : j = i
    · rw [if_pos hj, if_neg (by omega), if_neg (by omega), if_pos hj]
    · rw [if_neg hj, if_neg hj]

end Sys2Proof.Machine
end

section
/-! PROOF. What one step takes and answers: nothing, a reset or a command (O7, O12), and the instruction a command
decodes to, a table word's too (O8). -/

namespace Sys2Proof.Machine

/-- Settles O12, by the oldest input: with nothing waiting or at a reset no answer is added, and a command adds the one
of `responseTo`. -/
theorem eachCommandIsAnsweredOnce : Obligations.EachCommandIsAnsweredOnce := by
  intro s
  match h : s.inputs with
  | [] => exact ⟨s, step_idle h, h, by simp, fun _ => rfl⟩
  | .reset cut :: rest => exact ⟨_, step_reset h, rfl, by simp, fun _ => rfl⟩
  | .command c :: rest =>
    exact ⟨_, step_command h, rfl, fun _ _ _ => ⟨responseTo c, rfl⟩, fun noCommand => absurd rfl (noCommand c rest)⟩

/-- Settles O7: with nothing to take, a step is idle. -/
theorem idleUnitDoesNotMove : Obligations.IdleUnitDoesNotMove := fun _ => step_idle

theorem decodeTableWord_eq_some_iff {nbits w : Nat} {i : Instr} :
    decodeTableWord nbits w = some i ↔ decode (commandOfTableWord nbits w) = .instr i := by
  unfold decodeTableWord
  cases decode (commandOfTableWord nbits w) with
  | instr j => simp
  | reserved why => simp

theorem withFetchWord_inputs (s : State) (nbits w : Nat) :
    (s.withFetchWord nbits w).inputs = .command (commandOfTableWord nbits w) :: s.inputs := rfl

theorem withFetchWord_setInputs (s : State) (nbits w : Nat) : (s.withFetchWord nbits w).setInputs s.inputs = s := rfl

/-- Settles O8: a presented table word is the oldest input, and taking it gives back the state it was presented to. -/
theorem stepRunsTheDecodedCommand : Obligations.StepRunsTheDecodedCommand := by
  refine ⟨fun s c rest i h hd => step_instr h hd, fun s nbits w i hw => ?_⟩
  have hd := decodeTableWord_eq_some_iff.1 hw
  rw [step_instr (withFetchWord_inputs s nbits w) hd, withFetchWord_setInputs]

end Sys2Proof.Machine
end

section
/-! PROOF. Everything the decoder can answer (spec/30_encoding.md R83), from which decoding and encoding are inverse
(O1), the opcode map is that of the tables (O3, and O2 for words of it), and a reserved `op` gets the illegal-operation
response (O9). -/

namespace Sys2Proof.Machine

/-- What the decoder may answer to the command `c`: an instruction that encodes to `c`, or a reservation when the `op`
lies in a reserved range of R80. -/
def DecodesTo (c : Command) : Decoded → Prop
  | .instr i => encode i = c
  | .reserved _ => isReservedOp c.op = true

theorem isReservedOp_iff (op : BitVec 8) : isReservedOp op = true ↔
    (0x05 ≤ op.toNat ∧ op.toNat ≤ 0x1F) ∨ (0x25 ≤ op.toNat ∧ op.toNat ≤ 0x3F) ∨
      (0x43 ≤ op.toNat ∧ op.toNat ≤ 0x5F) ∨ (0x65 ≤ op.toNat ∧ op.toNat ≤ 0x7F) ∨
      (0x82 ≤ op.toNat ∧ op.toNat ≤ 0x9F) ∨ (0xA8 ≤ op.toNat ∧ op.toNat ≤ 0xBF) ∨
      (0xC0 ≤ op.toNat ∧ op.toNat ≤ 0xFF) := by
  simp [isReservedOp, reservedRanges]

/-- An instruction whose code has the group and the function of `op` encodes to `op` and its operands. -/
theorem encode_eq_of_fields {op : BitVec 8} {g fn : Nat} {i : Instr} (hg : (opGroup op).toNat = g)
    (hfn : (opFunction op).toNat = fn) (hi : (opcode i).toNat = 32 * g + fn) :
    encode i = ⟨op, operandA i, operandB i⟩ := by
  have hop : opcode i = op := BitVec.eq_of_toNat_eq (by rw [hi, op_toNat_eq op, hg, hfn])
  rw [encode, hop]

section Groups
variable {op : BitVec 8} (a b : Word64)

theorem decodeInt32_decodesTo (hg : (opGroup op).toNat = 0) :
    DecodesTo ⟨op, a, b⟩ (decodeInt32 (opFunction op) a b) := by
  unfold decodeInt32
  match hfn : (opFunction op).toNat with
  | 0 | 1 | 2 | 3 | 4 => exact encode_eq_of_fields hg hfn rfl
  | fn + 5 => exact (isReservedOp_iff op).2 (by have := op_toNat_eq op; omega)

theorem decodeInt64_decodesTo (hg : (opGroup op).toNat = 1) :
    DecodesTo ⟨op, a, b⟩ (decodeInt64 (opFunction op) a b) := by
  unfold decodeInt64
  match hfn : (opFunction op).toNat with
  | 0 | 1 | 2 | 3 | 4 => exact encode_eq_of_fields hg hfn rfl
  | fn + 5 => exact (isReservedOp_iff op).2 (by have := op_toNat_eq op; omega)

theorem decodeSext64_decodesTo (hg : (opGroup op).toNat = 2) :
    DecodesTo ⟨op, a, b⟩ (decodeSext64 (opFunction op) a b) := by
  unfold decodeSext64
  match hfn : (opFunction op).toNat with
  | 0 | 1 | 2 => exact encode_eq_of_fields hg hfn rfl
  | fn + 3 => exact (isReservedOp_iff op).2 (by have := op_toNat_eq op; omega)

theorem decodeBitcast_decodesTo (hg : (opGroup op).toNat = 3) :
    DecodesTo ⟨op, a, b⟩ (decodeBitcast (opFunction op) a b) := by
  unfold decodeBitcast
  match hfn : (opFunction op).toNat with
  | 0 | 1 | 2 | 3 | 4 => exact encode_eq_of_fields hg hfn rfl
  | fn + 5 => exact (isReservedOp_iff op).2 (by have := op_toNat_eq op; omega)

theorem decodeFsign_decodesTo (hg : (opGroup op).toNat = 4) :
    DecodesTo ⟨op, a, b⟩ (decodeFsign (opFunction op) a b) := by
  unfold decodeFsign
  match hfn : (opFunction op).toNat with
  | 0 | 1 => exact encode_eq_of_fields hg hfn rfl
  | fn + 2 => exact (isReservedOp_iff op).2 (by have := op_toNat_eq op; omega)

/-- With `FN[4:3] = 00` the function is made of the fields `D`, `U` and `F` (R78). -/
theorem function_toNat_of_high_eq_zero : ∀ fn : BitVec 5, fn.extractLsb' 3 2 = 0 →
    fn.toNat = 4 * (fn.getLsbD 2).toNat + 2 * (fn.getLsbD 1).toNat + (fn.getLsbD 0).toNat := by
  decide

theorem eight_le_function_of_high_ne_zero : ∀ fn : BitVec 5, ¬ fn.extractLsb' 3 2 = 0 → 8 ≤ fn.toNat := by
  decide

theorem opcode_truncsatOf (d u f : Bool) :
    (opcode (truncsatOf d u f a b)).toNat = 32 * 5 + (4 * d.toNat + 2 * u.toNat + f.toNat) := by
  cases d <;> cases u <;> cases f <;> rfl

theorem operands_truncsatOf (d u f : Bool) :
    operandA (truncsatOf d u f a b) = a ∧ operandB (truncsatOf d u f a b) = b := by
  cases d <;> cases u <;> cases f <;> exact ⟨rfl, rfl⟩

theorem decodeTruncsat_decodesTo (hg : (opGroup op).toNat = 5) :
    DecodesTo ⟨op, a, b⟩ (decodeTruncsat (opFunction op) a b) := by
  unfold decodeTruncsat
  split
  case isTrue hzero =>
    obtain ⟨ha, hb⟩ := operands_truncsatOf a b ((opFunction op).getLsbD 2) ((opFunction op).getLsbD 1)
      ((opFunction op).getLsbD 0)
    rw [DecodesTo, encode_eq_of_fields hg (function_toNat_of_high_eq_zero _ hzero) (opcode_truncsatOf ..), ha, hb]
  case isFalse hnonzero =>
    have := eight_le_function_of_high_ne_zero _ hnonzero
    exact (isReservedOp_iff op).2 (by have := op_toNat_eq op; omega)

end Groups

theorem decode_decodesTo (c : Command) : DecodesTo c (decode c) := by
  obtain ⟨op, a, b⟩ := c
  rw [decode]
  match hg : (opGroup op).toNat with
  | 0 => exact decodeInt32_decodesTo a b hg
  | 1 => exact decodeInt64_decodesTo a b hg
  | 2 => exact decodeSext64_decodesTo a b hg
  | 3 => exact decodeBitcast_decodesTo a b hg
  | 4 => exact decodeFsign_decodesTo a b hg
  | 5 => exact decodeTruncsat_decodesTo a b hg
  | g + 6 => exact (isReservedOp_iff op).2 (by have := op_toNat_eq op; omega)

theorem decode_encode (i : Instr) : decode (encode i) = .instr i := by
  cases i <;> (rw [encode, opcode, operandA, operandB]; rfl)

theorem encode_wf (i : Instr) : (encode i).wf = true := by cases i <;> rfl

theorem isReservedOp_opcode (i : Instr) : isReservedOp (opcode i) = false := by
  simpa [Command.wf, encode] using encode_wf i

theorem decode_eq_instr_iff {c : Command} {i : Instr} : decode c = .instr i ↔ encode i = c := by
  refine ⟨fun h => ?_, fun h => h ▸ decode_encode i⟩
  have := decode_decodesTo c
  rwa [h] at this

theorem isReservedOp_of_decode_eq_reserved {c : Command} {why : Reserved} (h : decode c = .reserved why) :
    isReservedOp c.op = true := by
  have := decode_decodesTo c
  rwa [h] at this

theorem exists_decode_eq_reserved_iff {c : Command} : (∃ why, decode c = .reserved why) ↔ isReservedOp c.op = true := by
  refine ⟨fun ⟨_, h⟩ => isReservedOp_of_decode_eq_reserved h, fun hres => ?_⟩
  cases hd : decode c with
  | reserved why => exact ⟨why, rfl⟩
  | instr i =>
    have legal := encode_wf i
    rw [decode_eq_instr_iff.1 hd, Command.wf, hres] at legal
    contradiction

theorem exists_decode_eq_instr_iff {c : Command} : (∃ i, decode c = .instr i) ↔ c.wf = true := by
  refine ⟨fun ⟨i, h⟩ => decode_eq_instr_iff.1 h ▸ encode_wf i, fun legal => ?_⟩
  cases hd : decode c with
  | instr i => exact ⟨i, rfl⟩
  | reserved why => simp [Command.wf, isReservedOp_of_decode_eq_reserved hd] at legal

/-- Settles O1: the decoder gives an instruction only for the command that encodes it, and an encoding is in no reserved
range. -/
theorem decodeAndEncodeAgree : Obligations.DecodeAndEncodeAgree :=
  ⟨fun i => ⟨decode_encode i, encode_wf i⟩, fun _ _ => decode_eq_instr_iff.1⟩

/-- Settles O3: each code is the encoding of its operation, and the ranges between are those of R80. -/
theorem opcodeMapIsExactlyTheTables : Obligations.OpcodeMapIsExactlyTheTables := by
  refine ⟨fun a b => ?_, fun op a b range => ?_⟩
  · and_intros <;> exact decode_eq_instr_iff.2 rfl
  · exact exists_decode_eq_reserved_iff.2 ((isReservedOp_iff op).2 (by omega))

/-- Settles O2: eight closed words, each decoded by evaluation. -/
theorem opcodeWordsDecodeAsTabled : Obligations.OpcodeWordsDecodeAsTabled := by
  unfold Obligations.OpcodeWordsDecodeAsTabled
  decide

/-- Settles O9: the response of R192 adds one answer, and an instruction's answer and what it writes do not depend on
the answers before it. -/
theorem reservedOpIsAnsweredIllegal : Obligations.ReservedOpIsAnsweredIllegal := by
  intro s op a b rest h range
  obtain ⟨why, hd⟩ := exists_decode_eq_reserved_iff (c := ⟨op, a, b⟩).2 ((isReservedOp_iff op).2 range)
  refine ⟨_, step_reserved h hd, rfl, fun i => ?_⟩
  exact ⟨legalAnswer (resultOf i), _, _, exec_next i _, exec_next i _, by simp [illegalAnswer], rfl, rfl⟩

end Sys2Proof.Machine
end

section
/-! PROOF. The operand bits an operation names (spec/30_encoding.md R79): an instruction does what it does with every
other bit cleared, so that commands which agree on the named bits make one step (O15). -/

namespace Sys2Proof.Machine

/-- `v` with all but its low `k` bits cleared. -/
def lowBits (k : Nat) (v : Word64) : Word64 := BitVec.ofNat 64 (v.toNat % 2 ^ k)

/-- The instruction with every operand bit cleared that its row in R73 to R78 does not name. -/
def clearIgnored : Instr → Instr
  | .rotl32 a b => .rotl32 (lowBits 32 a) (lowBits 5 b)
  | .rotr32 a b => .rotr32 (lowBits 32 a) (lowBits 5 b)
  | .clz32 a _ => .clz32 (lowBits 32 a) 0
  | .ctz32 a _ => .ctz32 (lowBits 32 a) 0
  | .popcnt32 a _ => .popcnt32 (lowBits 32 a) 0
  | .rotl64 a b => .rotl64 a (lowBits 6 b)
  | .rotr64 a b => .rotr64 a (lowBits 6 b)
  | .clz64 a _ => .clz64 a 0
  | .ctz64 a _ => .ctz64 a 0
  | .popcnt64 a _ => .popcnt64 a 0
  | .sext8 a _ => .sext8 (lowBits 8 a) 0
  | .sext16 a _ => .sext16 (lowBits 16 a) 0
  | .sext32 a _ => .sext32 (lowBits 32 a) 0
  | .castI32F32 a _ => .castI32F32 (lowBits 32 a) 0
  | .castF32I32 a _ => .castF32I32 (lowBits 32 a) 0
  | .castI64F64 a _ => .castI64F64 a 0
  | .castF64I64 a _ => .castF64I64 a 0
  | .castS64U64 a _ => .castS64U64 a 0
  | .copysignF32 a b => .copysignF32 (lowBits 32 a) (lowBits 32 b)
  | .copysignF64 a b => .copysignF64 a b
  | .truncsatS32F32 a _ => .truncsatS32F32 (lowBits 32 a) 0
  | .truncsatS32F64 a _ => .truncsatS32F64 a 0
  | .truncsatU32F32 a _ => .truncsatU32F32 (lowBits 32 a) 0
  | .truncsatU32F64 a _ => .truncsatU32F64 a 0
  | .truncsatS64F32 a _ => .truncsatS64F32 (lowBits 32 a) 0
  | .truncsatS64F64 a _ => .truncsatS64F64 a 0
  | .truncsatU64F32 a _ => .truncsatU64F32 (lowBits 32 a) 0
  | .truncsatU64F64 a _ => .truncsatU64F64 a 0

theorem lowBits_congr {k : Nat} {v v' : Word64} (h : v.toNat % 2 ^ k = v'.toNat % 2 ^ k) : lowBits k v = lowBits k v' :=
  congrArg (BitVec.ofNat 64) h

theorem lowBits_toNat (k : Nat) (v : Word64) : (lowBits k v).toNat = v.toNat % 2 ^ k := by
  rw [lowBits, BitVec.toNat_ofNat, Nat.mod_eq_of_lt ((Nat.mod_le ..).trans_lt v.isLt)]

theorem setWidth_lowBits (k : Nat) (v : Word64) : (lowBits k v).setWidth k = v.setWidth k := by
  apply BitVec.eq_of_toNat_eq
  rw [BitVec.toNat_setWidth, BitVec.toNat_setWidth, lowBits_toNat, Nat.mod_mod]

@[simp] theorem word32_lowBits (v : Word64) : word32 (lowBits 32 v) = word32 v := by
  rw [word32_eq_setWidth, word32_eq_setWidth, setWidth_lowBits]

@[simp] theorem amount32_lowBits (v : Word64) : amount32 (lowBits 5 v) = amount32 v := by
  rw [amount32_eq_mod, amount32_eq_mod, lowBits_toNat]
  exact Nat.mod_mod ..

@[simp] theorem amount64_lowBits (v : Word64) : amount64 (lowBits 6 v) = amount64 v := by
  rw [amount64_eq_mod, amount64_eq_mod, lowBits_toNat]
  exact Nat.mod_mod ..

theorem extendField_lowBits {M : Nat} (hM : 0 < M ∧ M ≤ 32) (v : Word64) :
    extendField M (lowBits M v) = extendField M v := by
  rw [extendField_eq_signExtend hM, extendField_eq_signExtend hM, setWidth_lowBits]

theorem resultOf_clearIgnored (i : Instr) : resultOf (clearIgnored i) = resultOf i := by
  cases i with
  | rotl32 | rotr32 => simp [clearIgnored, resultOf, rotl32Result, rotr32Result]
  | clz32 | ctz32 | popcnt32 => simp [clearIgnored, resultOf, clz32Result, ctz32Result, popcnt32Result]
  | rotl64 | rotr64 => simp [clearIgnored, resultOf, rotl64Result, rotr64Result]
  | sext8 a | sext16 a | sext32 a => exact extendField_lowBits (by decide) a
  | castI32F32 | castF32I32 => simp [clearIgnored, resultOf]
  | copysignF32 => simp [clearIgnored, resultOf, copysignF32Result]
  | truncsatS32F32 | truncsatU32F32 | truncsatS64F32 | truncsatU64F32 =>
    simp [clearIgnored, resultOf, truncsatS32F32Result, truncsatU32F32Result, truncsatS64F32Result,
      truncsatU64F32Result]
  | _ => rfl

theorem scratchAfter_clearIgnored (i : Instr) (m : Memory) : scratchAfter (clearIgnored i) m = scratchAfter i m := by
  cases i with
  | castI32F32 | castF32I32 => simp [clearIgnored, scratchAfter]
  | _ => rfl

theorem exec_clearIgnored (i : Instr) (s : State) : exec (clearIgnored i) s = exec i s := by
  rw [exec_next, exec_next, resultOf_clearIgnored, scratchAfter_clearIgnored]

/-- `op` names at most the bits of `A` and `B` that `fa` and `fb` keep: on these it decodes to its instruction with the
ignored bits cleared. -/
def NamesOnly (op : BitVec 8) (fa fb : Word64 → Word64) : Prop :=
  ∀ a b, ∃ i, decode ⟨op, a, b⟩ = .instr i ∧ decode ⟨op, fa a, fb b⟩ = .instr (clearIgnored i)

theorem NamesOnly.step_congr {op : BitVec 8} {fa fb : Word64 → Word64} (named : NamesOnly op fa fb)
    {a b a' b' : Word64} (ha : fa a = fa a') (hb : fb b = fb b') (s : State) (rest : List Input) :
    step { s with inputs := .command ⟨op, a, b⟩ :: rest } =
      step { s with inputs := .command ⟨op, a', b'⟩ :: rest } := by
  obtain ⟨i, hi, hclear⟩ := named a b
  obtain ⟨i', hi', hclear'⟩ := named a' b'
  have cleared : clearIgnored i = clearIgnored i' := by
    rw [← ha, ← hb, hclear] at hclear'
    exact Decoded.instr.inj hclear'
  rw [step_instr rfl hi, step_instr rfl hi', ← exec_clearIgnored i, cleared, exec_clearIgnored]
  rfl

theorem op_toNat_eq_iff {op : BitVec 8} {n : Nat} (h : n < 256) : op.toNat = n ↔ op = BitVec.ofNat 8 n := by
  rw [← BitVec.toNat_inj, BitVec.toNat_ofNat, Nat.mod_eq_of_lt h]

/-- Settles O15, class by class: the named bits, and that the two commands agree on them. -/
theorem ignoredOperandBitsHaveNoEffect : Obligations.IgnoredOperandBitsHaveNoEffect := by
  intro s op a b a' b' rest agree
  simp (disch := decide) only [List.mem_cons, List.not_mem_nil, or_false, op_toNat_eq_iff] at agree
  obtain ⟨hop, ha, hb⟩ | ⟨hop, ha⟩ | ⟨hop, rfl, hb⟩ | ⟨hop, rfl⟩ | ⟨rfl, ha⟩ | ⟨rfl, ha⟩ | ⟨rfl, ha, hb⟩ := agree
  · have named : NamesOnly op (lowBits 32) (lowBits 5) := by
      rcases hop with rfl | rfl <;> exact fun _ _ => ⟨_, rfl, rfl⟩
    exact named.step_congr (lowBits_congr ha) (lowBits_congr hb) s rest
  · have named : NamesOnly op (lowBits 32) (fun _ => 0) := by
      rcases hop with rfl | rfl | rfl | rfl | rfl | rfl | rfl | rfl | rfl | rfl <;> exact fun _ _ => ⟨_, rfl, rfl⟩
    exact named.step_congr (lowBits_congr ha) rfl s rest
  · have named : NamesOnly op id (lowBits 6) := by
      rcases hop with rfl | rfl <;> exact fun _ _ => ⟨_, rfl, rfl⟩
    exact named.step_congr rfl (lowBits_congr hb) s rest
  · have named : NamesOnly op id (fun _ => 0) := by
      rcases hop with rfl | rfl | rfl | rfl | rfl | rfl | rfl | rfl | rfl | rfl <;> exact fun _ _ => ⟨_, rfl, rfl⟩
    exact named.step_congr rfl rfl s rest
  · have named : NamesOnly 0x40 (lowBits 8) (fun _ => 0) := fun _ _ => ⟨_, rfl, rfl⟩
    exact named.step_congr (lowBits_congr ha) rfl s rest
  · have named : NamesOnly 0x41 (lowBits 16) (fun _ => 0) := fun _ _ => ⟨_, rfl, rfl⟩
    exact named.step_congr (lowBits_congr ha) rfl s rest
  · have named : NamesOnly 0x80 (lowBits 32) (lowBits 32) := fun _ _ => ⟨_, rfl, rfl⟩
    exact named.step_congr (lowBits_congr ha) (lowBits_congr hb) s rest

end Sys2Proof.Machine
end

section
/-! PROOF. The mnemonics (spec/30_encoding.md R84, R85): looking a word up finds the one row it spells (O54), and the
rows are exactly the legal codes (O4). -/

namespace Sys2Proof.Machine

theorem mnemonics_names_nodup : (mnemonics.map (·.name)).Nodup := by decide +kernel

theorem mnemonics_ops_nodup : (mnemonics.map (·.op)).Nodup := by decide

/-- The rows of the table are for exactly the codes in no reserved range. -/
theorem isReservedOp_eq_false_iff_mem_ops :
    ∀ op : BitVec 8, isReservedOp op = false ↔ op ∈ mnemonics.map (·.op) := by decide

theorem name_of_findMnemonic {written : List Char} {r : MnemonicRow} (h : findMnemonic written = some r) :
    r.name = written.map upperChar := by
  unfold findMnemonic at h
  simpa using List.find?_some h

theorem findMnemonic_eq_some_iff {written : List Char} {r : MnemonicRow} :
    findMnemonic written = some r ↔ r ∈ mnemonics ∧ r.name = written.map upperChar := by
  refine ⟨fun h => ⟨List.mem_of_find?_eq_some h, name_of_findMnemonic h⟩, fun ⟨hr, hname⟩ => ?_⟩
  cases found : findMnemonic written with
  | none => exact absurd (beq_iff_eq.2 hname) (List.find?_eq_none.1 found r hr)
  | some r' =>
    have same : r'.name = r.name := (name_of_findMnemonic found).trans hname.symm
    rw [List.inj_on_of_nodup_map mnemonics_names_nodup (List.mem_of_find?_eq_some found) hr same]

/-- Settles O54: a word spells a name exactly when its capitals are the name. -/
theorem mnemonicsAreCaseInsensitive : Obligations.MnemonicsAreCaseInsensitive := by
  intro written
  have spells {r} (hr : r ∈ mnemonics) :=
    map_upperChar_eq_iff (written := written) (mnemonics_have_no_small_letter r hr)
  refine ⟨fun r hr h => findMnemonic_eq_some_iff.2 ⟨hr, ((spells hr).2 h).symm⟩, fun none_spelt => ?_⟩
  rw [Option.eq_none_iff_forall_ne_some]
  intro r found
  obtain ⟨hr, hname⟩ := findMnemonic_eq_some_iff.1 found
  exact none_spelt r hr ((spells hr).1 hname.symm)

/-- Settles O4: no name and no code occurs twice in the table, and its codes are the legal ones. -/
theorem everyMnemonicNamesOneOp : Obligations.EveryMnemonicNamesOneOp := by
  refine ⟨fun r hr r' hr' same => ?unique, fun r hr a b => ?legal, fun i => ?row, ?lookups⟩
  case unique =>
    obtain name | op := same
    · exact List.inj_on_of_nodup_map mnemonics_names_nodup hr' hr name
    · exact List.inj_on_of_nodup_map mnemonics_ops_nodup hr' hr op
  case legal =>
    have notReserved := (isReservedOp_eq_false_iff_mem_ops r.op).2 (List.mem_map_of_mem hr)
    exact exists_decode_eq_instr_iff.2 (by rw [Command.wf, notReserved]; rfl)
  case row => exact List.mem_map.1 ((isReservedOp_eq_false_iff_mem_ops _).1 (isReservedOp_opcode i))
  case lookups => decide +kernel

end Sys2Proof.Machine
end

section
/-! PROOF. The value of a literal (spec/30_encoding.md R84, O5). -/

namespace Sys2Proof.Machine

theorem hexDigit_of_digitChar {d : Nat} {c : Char} (hd : d < 16)
    (hc : c = Nat.digitChar d ∨ c = (Nat.digitChar d).toUpper) : hexDigit c = some d := by
  obtain rfl | rfl := hc
  · exact hexDigit_digitChar d hd
  · exact hexDigit_digitChar_toUpper d hd

/-- The digits read so far count as one digit before the others. -/
theorem digitsValue_hexDigit {ds : List Nat} {cs : List Char} (hds : ∀ d ∈ ds, d < 16)
    (hcs : List.Forall₂ (fun d c => c = Nat.digitChar d ∨ c = (Nat.digitChar d).toUpper) ds cs) (acc : Nat) :
    digitsValue 16 hexDigit acc cs = some (Nat.ofDigits 16 (ds.reverse ++ [acc])) := by
  induction hcs generalizing acc with
  | nil => simp [digitsValue]
  | @cons d c ds cs hc _ ih =>
    obtain ⟨hd, hds⟩ := List.forall_mem_cons.1 hds
    rw [digitsValue, hexDigit_of_digitChar hd hc, Option.bind_some, ih hds]
    apply congrArg some
    simp only [List.reverse_cons, List.append_assoc, List.singleton_append, Nat.ofDigits_append, Nat.ofDigits_cons,
      Nat.ofDigits_nil]
    ring

/-- Settles O5, by induction on the digits; the other digit counts fail the length test. -/
theorem literalIsItsHexadecimalValue : Obligations.LiteralIsItsHexadecimalValue := by
  intro ds cs hds hcs
  refine ⟨fun inside => ?_, fun outside => ?_⟩
  · rw [hcs.length_eq] at inside
    rw [parseLiteral, if_pos inside, digitsValue_hexDigit hds hcs]
    simp [Nat.ofDigits_append]
  · rw [hcs.length_eq] at outside
    rw [parseLiteral, if_neg (by omega)]

end Sys2Proof.Machine
end

section
/-! PROOF. The bit reinterpretations (spec/40_bitcast.md R100 to R105): all five have one form, a write of the operand's
low bytes to the lane at offset 0 and an answer of the same bytes (O36 to O40), so an inverse pair gives the operand
back (O41). -/

namespace Sys2Proof.Machine

/-- The state after a reinterpretation of the `n`-byte pattern `v`: its bytes in `S[0..n-1]`, and `v` answered. -/
def afterCast (n : Nat) (v : Word64) (s : State) : State :=
  (s.setScratch (Memory.putBytes 0 v n s.scratch)).addAnswer (legalAnswer v)

theorem scratchByte_afterCast_inside (s : State) (v : Word64) {n k : Nat} (hk : k < n) :
    scratchByte (afterCast n v s) k = v.extractLsb' (8 * k) 8 := by
  rw [afterCast, scratchByte_addAnswer, ← Nat.zero_add k, scratchByte_putBytes_inside s 0 v hk, Nat.zero_add]

theorem scratchByte_afterCast_outside (s : State) (v : Word64) {n k : Nat} (hk : n ≤ k) :
    scratchByte (afterCast n v s) k = scratchByte s k := by
  rw [afterCast, scratchByte_addAnswer, scratchByte_putBytes_outside s v (by omega)]

theorem scratchByte_afterCast_result32 (s : State) (a : Word64) {k : Nat} (hk : k < 4) :
    scratchByte (afterCast 4 (result32 (word32 a)) s) k = a.extractLsb' (8 * k) 8 :=
  (scratchByte_afterCast_inside s _ hk).trans (byte_result32_word32 a hk)

section
variable (a b : Word64) (s : State)

theorem exec_castI32F32 : exec (.castI32F32 a b) s = .next (afterCast 4 (result32 (word32 a)) s) := exec_next _ s
theorem exec_castF32I32 : exec (.castF32I32 a b) s = .next (afterCast 4 (result32 (word32 a)) s) := exec_next _ s
theorem exec_castI64F64 : exec (.castI64F64 a b) s = .next (afterCast 8 a s) := exec_next _ s
theorem exec_castF64I64 : exec (.castF64I64 a b) s = .next (afterCast 8 a s) := exec_next _ s
theorem exec_castS64U64 : exec (.castS64U64 a b) s = .next (afterCast 8 a s) := exec_next _ s

end

@[simp] theorem word32_result32 (v : Word32) : word32 (result32 v) = v := by
  rw [word32_eq_setWidth, result32, BitVec.setWidth_setWidth_of_le v (by decide), BitVec.setWidth_eq]

theorem result32_word32_eq_setWidth (a : Word64) : result32 (word32 a) = (a.setWidth 32).setWidth 64 := by
  rw [word32_eq_setWidth, result32]

theorem setWidth_result32_word32 (a : Word64) : (result32 (word32 a)).setWidth 32 = a.setWidth 32 := by
  rw [← word32_eq_setWidth, word32_result32, word32_eq_setWidth]

theorem laneInteger_i32_result32 (a : Word64) :
    laneInteger .i32 (result32 (word32 a)) = some (a.setWidth 32).toInt := by
  rw [laneInteger, word32_result32, word32_eq_setWidth]

/-- The signed lane reads a pattern from `2^63` on as the negative number it stands for (R104). -/
theorem laneInteger_i64_eq (a : Word64) :
    laneInteger .i64 a = some (if a.toNat < 2 ^ 63 then (a.toNat : Int) else a.toNat - 2 ^ 64) := by
  rw [laneInteger, BitVec.toInt_eq_toNat_cond]
  by_cases low : a.toNat < 2 ^ 63
  · rw [if_pos low, if_pos (by omega)]
  · rw [if_neg low, if_neg (by omega)]; rfl

/-- Settles O36: the i32 lane reads back the pattern written through the f32 lane, as a signed number. -/
theorem castI32F32KeepsThePattern : Obligations.CastI32F32KeepsThePattern := fun s a b =>
  ⟨decode_eq_instr_iff.2 rfl, _, _, exec_castI32F32 a b s, rfl, result32_word32_eq_setWidth a,
    laneInteger_i32_result32 a, fun _ => scratchByte_afterCast_result32 s a,
    fun _ => scratchByte_afterCast_outside s _, rfl, rfl, rfl⟩

/-- Settles O37: the f32 lane reads back the pattern written through the i32 lane. -/
theorem castF32I32KeepsThePattern : Obligations.CastF32I32KeepsThePattern := fun s a b =>
  ⟨decode_eq_instr_iff.2 rfl, _, _, exec_castF32I32 a b s, rfl, result32_word32_eq_setWidth a,
    fun _ => scratchByte_afterCast_result32 s a, fun _ => scratchByte_afterCast_outside s _, rfl, rfl, rfl⟩

/-- Settles O38: the u64 lane reads back the pattern written through the f64 lane, as an unsigned number. -/
theorem castI64F64KeepsThePattern : Obligations.CastI64F64KeepsThePattern := fun s a b =>
  ⟨decode_eq_instr_iff.2 rfl, _, _, exec_castI64F64 a b s, rfl, rfl, rfl,
    fun _ => scratchByte_afterCast_inside s a, fun _ => scratchByte_afterCast_outside s a, rfl, rfl, rfl⟩

/-- Settles O39: the f64 lane reads back the pattern written through the u64 lane. -/
theorem castF64I64KeepsThePattern : Obligations.CastF64I64KeepsThePattern := fun s a b =>
  ⟨decode_eq_instr_iff.2 rfl, _, _, exec_castF64I64 a b s, rfl, rfl,
    fun _ => scratchByte_afterCast_inside s a, fun _ => scratchByte_afterCast_outside s a, rfl, rfl, rfl⟩

/-- Settles O40: the i64 lane reads back the pattern written through the u64 lane, as a signed number. -/
theorem castS64U64KeepsThePattern : Obligations.CastS64U64KeepsThePattern := fun s a b =>
  ⟨decode_eq_instr_iff.2 rfl, _, _, exec_castS64U64 a b s, rfl, rfl, laneInteger_i64_eq a,
    fun _ => scratchByte_afterCast_inside s a, fun _ => scratchByte_afterCast_outside s a, rfl, rfl, rfl⟩

/-- Settles O41: each operation answers its operand's low bits, and the inverse runs on that answer from the state the
first has left. -/
theorem bitcastsRoundTrip : Obligations.BitcastsRoundTrip := by
  intro s x b b'
  have once := setWidth_result32_word32 x
  have twice := (setWidth_result32_word32 (result32 (word32 x))).trans once
  exact ⟨⟨_, _, _, _, exec_castF32I32 x b s, rfl, once, exec_castI32F32 _ b' _, rfl, twice⟩,
    ⟨_, _, _, _, exec_castI32F32 x b s, rfl, once, exec_castF32I32 _ b' _, rfl, twice⟩,
    ⟨_, _, _, exec_castF64I64 x b s, rfl, rfl, exec_castI64F64 x b' _, rfl⟩,
    ⟨_, _, _, exec_castI64F64 x b s, rfl, rfl, exec_castF64I64 x b' _, rfl⟩,
    ⟨_, exec_castS64U64 x b s, rfl⟩⟩

end Sys2Proof.Machine
end

section
/-! PROOF. What every operation outside the BITCAST group does (spec/00_scope.md R18): it answers its result and changes
nothing else, and so it has one result only. -/

namespace Sys2Proof.Machine

theorem answersOnly_resultOf {i : Instr} (frame : ∀ m, scratchAfter i m = m) (s : State) :
    AnswersOnly i s (resultOf i) := by
  rw [AnswersOnly, exec_next, frame]
  rfl

theorem AnswersOnly.result_unique {i : Instr} {s : State} {q r : Word64} (hq : AnswersOnly i s q)
    (hr : AnswersOnly i s r) : q = r := by
  have same := Host.Outcome.next.inj (hq.symm.trans hr)
  simpa using congrArg State.answers same

theorem getLsbD_result32 (v : Word32) {i : Nat} (hi : i < 64) : (result32 v).getLsbD i = v.getLsbD i := by
  simp [result32, hi]

theorem getLsbD_result32_of_ge (v : Word32) {i : Nat} (hi : 32 ≤ i) : (result32 v).getLsbD i = false := by
  simp [result32, hi]

end Sys2Proof.Machine
end

section
/-! PROOF. The rotates of the INT32 group (spec/41_bitops32.md R124, R125; O23, O24): where each bit goes, at any width,
and that the two undo each other on a 32-bit operand. -/

namespace Sys2Proof.Machine

section
variable {w k i : Nat} (v : BitVec w)

theorem getLsbD_rotl_add_mod (hk : k < w) (hi : i < w) : (rotl v k).getLsbD ((i + k) % w) = v.getLsbD i := by
  rw [getLsbD_rotl v k _ hk (Nat.mod_lt _ (by omega))]
  by_cases stays : i + k < w
  · rw [Nat.mod_eq_of_lt stays, if_neg (by omega), Nat.add_sub_cancel]
  · have wraps : (i + k) % w = i + k - w := by
      rw [Nat.mod_eq_sub_mod (by omega), Nat.mod_eq_of_lt (by omega)]
    rw [wraps, if_pos (by omega)]
    congr 1
    omega

/-- The right rotate takes each bit from where the left rotate by the same amount puts it. -/
theorem getLsbD_rotr_eq_add_mod (hk : k < w) (hi : i < w) : (rotr v k).getLsbD i = v.getLsbD ((i + k) % w) := by
  rw [← getLsbD_rotl_add_mod (rotr v k) hk hi, rotl_rotr v hk]

end

theorem amount32_lt (b : Word64) : amount32 b < 32 := (b.extractLsb' 0 5).isLt

theorem rotl32Result_eq (a b : Word64) : rotl32Result a b = (rotl (a.setWidth 32) (b.toNat % 32)).setWidth 64 := by
  rw [rotl32Result, word32_eq_setWidth, amount32_eq_mod, result32]

theorem rotr32Result_eq (a b : Word64) : rotr32Result a b = (rotr (a.setWidth 32) (b.toNat % 32)).setWidth 64 := by
  rw [rotr32Result, word32_eq_setWidth, amount32_eq_mod, result32]

theorem getLsbD_rotl32Result (a b : Word64) {i : Nat} (hi : i < 32) :
    (rotl32Result a b).getLsbD ((i + b.toNat % 32) % 32) = a.getLsbD i := by
  rw [← amount32_eq_mod, rotl32Result, getLsbD_result32 _ (by omega), getLsbD_rotl_add_mod _ (amount32_lt b) hi,
    getLsbD_word32 a hi]

theorem getLsbD_rotr32Result (a b : Word64) {i : Nat} (hi : i < 32) :
    (rotr32Result a b).getLsbD i = a.getLsbD ((i + b.toNat % 32) % 32) := by
  rw [← amount32_eq_mod, rotr32Result, getLsbD_result32 _ (by omega), getLsbD_rotr_eq_add_mod _ (amount32_lt b) hi,
    getLsbD_word32 a (by omega)]

theorem rotr32Result_eq_rotl (a b : Word64) :
    rotr32Result a b = (rotl (a.setWidth 32) ((32 - b.toNat % 32) % 32)).setWidth 64 := by
  rw [rotr32Result_eq, rotr_eq_rotl _ (by omega)]

theorem rotl32Result_rotr32Result (a b : Word64) : rotl32Result (rotr32Result a b) b = (a.setWidth 32).setWidth 64 := by
  rw [rotl32Result, rotr32Result, word32_result32, rotl_rotr _ (amount32_lt b), result32_word32_eq_setWidth]

theorem rotr32Result_rotl32Result (a b : Word64) : rotr32Result (rotl32Result a b) b = (a.setWidth 32).setWidth 64 := by
  rw [rotr32Result, rotl32Result, word32_result32, rotr_rotl _ (amount32_lt b), result32_word32_eq_setWidth]

section
variable (a b : Word64) (s : State)

theorem answersOnly_rotl32 : AnswersOnly (.rotl32 a b) s (rotl32Result a b) :=
  answersOnly_resultOf (fun _ => rfl) s

theorem answersOnly_rotr32 : AnswersOnly (.rotr32 a b) s (rotr32Result a b) :=
  answersOnly_resultOf (fun _ => rfl) s

end

/-- Settles O23: the masked amount is below 32, so bit `i` of the operand goes to place `(i + n) % 32`. -/
theorem rotl32RotatesByTheMaskedAmount : Obligations.Rotl32RotatesByTheMaskedAmount := fun s a b =>
  ⟨decode_eq_instr_iff.2 rfl, _, answersOnly_rotl32 a b s, rotl32Result_eq a b, fun _ => getLsbD_rotl32Result a b⟩

/-- Settles O24: the right rotate is the left rotate by `(32 - n) % 32`, and the two rotates of one `B` undo each other
because both amounts are the same masked one. -/
theorem rotr32RotatesByTheMaskedAmount : Obligations.Rotr32RotatesByTheMaskedAmount := by
  intro s a b
  refine ⟨decode_eq_instr_iff.2 rfl, _, answersOnly_rotr32 a b s, rotr32Result_eq a b,
    fun _ => getLsbD_rotr32Result a b, rotr32Result_eq_rotl a b,
    fun s' => ?leftAfterRight, fun s' q hq => ?rightAfterLeft⟩
  case leftAfterRight => exact rotl32Result_rotr32Result a b ▸ answersOnly_rotl32 (rotr32Result a b) b s'
  case rightAfterLeft =>
    rw [hq.result_unique (answersOnly_rotl32 a b s'), ← rotr32Result_rotl32Result a b]
    exact answersOnly_rotr32 _ b s'

end Sys2Proof.Machine
end

section
/-! PROOF. The counts of the INT32 group (spec/41_bitops32.md R126 to R128; O25 to O27): the count of `A[31:0]`, told
over the bits of `A`. -/

namespace Sys2Proof.Machine

section
variable (a b : Word64) (s : State)

theorem answersOnly_clz32 : AnswersOnly (.clz32 a b) s (BitVec.ofNat 64 (clz (word32 a))) :=
  answersOnly_resultOf (fun _ => rfl) s

theorem answersOnly_ctz32 : AnswersOnly (.ctz32 a b) s (BitVec.ofNat 64 (ctz (word32 a))) :=
  answersOnly_resultOf (fun _ => rfl) s

theorem answersOnly_popcnt32 : AnswersOnly (.popcnt32 a b) s (BitVec.ofNat 64 (popcount (word32 a))) :=
  answersOnly_resultOf (fun _ => rfl) s

end

theorem clz_word32_spec (a : Word64) : clz (word32 a) ≤ 32 ∧
    (∀ i < 32, 32 - clz (word32 a) ≤ i → a.getLsbD i = false) ∧
    (clz (word32 a) < 32 → a.getLsbD (31 - clz (word32 a)) = true) := by
  obtain ⟨le, clear, set⟩ := clz_spec (word32 a)
  refine ⟨le, fun i hi above => ?_, fun hc => ?_⟩
  · rw [← getLsbD_word32 a hi, clear i hi above]
  · rw [← getLsbD_word32 a (by omega), set hc]

theorem ctz_word32_spec (a : Word64) : ctz (word32 a) ≤ 32 ∧ (∀ i < ctz (word32 a), a.getLsbD i = false) ∧
    (ctz (word32 a) < 32 → a.getLsbD (ctz (word32 a)) = true) := by
  obtain ⟨le, clear, set⟩ := ctz_spec (word32 a)
  refine ⟨le, fun i below => ?_, fun hc => ?_⟩
  · rw [← getLsbD_word32 a (by omega), clear i below]
  · rw [← getLsbD_word32 a hc, set hc]

theorem popcount_word32_eq_card (a : Word64) :
    popcount (word32 a) = ((Finset.range 32).filter fun i => a.getLsbD i = true).card := by
  rw [popcount_eq_card, Finset.filter_congr fun i hi => by rw [getLsbD_word32 a (Finset.mem_range.1 hi)]]

/-- Settles O25: the bits above the highest set one are clear. -/
theorem clz32CountsLeadingZeros : Obligations.Clz32CountsLeadingZeros := fun s a b =>
  ⟨decode_eq_instr_iff.2 rfl, _, answersOnly_clz32 a b s, clz_word32_spec a⟩

/-- Settles O26: the bits below the lowest set one are clear. -/
theorem ctz32CountsTrailingZeros : Obligations.Ctz32CountsTrailingZeros := fun s a b =>
  ⟨decode_eq_instr_iff.2 rfl, _, answersOnly_ctz32 a b s, ctz_word32_spec a⟩

/-- Settles O27: the bits of `A[31:0]` that are set are those of `A` below 32. -/
theorem popcnt32CountsTheOnes : Obligations.Popcnt32CountsTheOnes := fun s a b =>
  ⟨decode_eq_instr_iff.2 rfl, popcount_word32_eq_card a ▸ answersOnly_popcnt32 a b s⟩

end Sys2Proof.Machine
end

section
/-! PROOF. The FSIGN group (spec/41_bitops32.md R121 to R123; O42, O43): a pattern with its sign bit replaced, which is
the pattern itself when the new sign is its own. -/

namespace Sys2Proof.Machine

/-- The bits of a pattern whose sign bit is replaced by `sg` (R121 to R123). -/
theorem getLsbD_cons_extractLsb' {n i : Nat} (sg : Bool) (x : BitVec (n + 1)) (hi : i < n + 1) :
    (BitVec.cons sg (x.extractLsb' 0 n)).getLsbD i = if i = n then sg else x.getLsbD i := by
  rw [BitVec.getLsbD_cons]
  split
  · rfl
  · next magnitude => rw [BitVec.getLsbD_extractLsb', decide_eq_true (by omega), Bool.true_and, Nat.zero_add]

theorem cons_getLsbD_extractLsb' {n : Nat} (x : BitVec (n + 1)) :
    BitVec.cons (x.getLsbD n) (x.extractLsb' 0 n) = x := by
  apply BitVec.eq_of_getLsbD_eq
  intro i hi
  rw [getLsbD_cons_extractLsb' _ x hi]
  split
  · next sign => rw [sign]
  · rfl

theorem getLsbD_copysignF32Result (a b : Word64) {i : Nat} (hi : i < 32) :
    (copysignF32Result a b).getLsbD i = if i = 31 then b.getLsbD 31 else a.getLsbD i := by
  rw [copysignF32Result, getLsbD_result32 _ (by omega), getLsbD_cons_extractLsb' _ (word32 a) hi, negF32,
    getLsbD_word32 a hi, getLsbD_word32 b (by decide)]

theorem getLsbD_copysignF64Result (a b : Word64) {i : Nat} (hi : i < 64) :
    (copysignF64Result a b).getLsbD i = if i = 63 then b.getLsbD 63 else a.getLsbD i :=
  getLsbD_cons_extractLsb' (negF64 b) a hi

theorem copysignF32Result_self (a : Word64) : copysignF32Result a a = (a.setWidth 32).setWidth 64 := by
  rw [copysignF32Result, negF32, cons_getLsbD_extractLsb', result32_word32_eq_setWidth]

theorem copysignF64Result_self (a : Word64) : copysignF64Result a a = a := cons_getLsbD_extractLsb' a

section
variable (a b : Word64) (s : State)

theorem answersOnly_copysignF32 : AnswersOnly (.copysignF32 a b) s (copysignF32Result a b) :=
  answersOnly_resultOf (fun _ => rfl) s

theorem answersOnly_copysignF64 : AnswersOnly (.copysignF64 a b) s (copysignF64Result a b) :=
  answersOnly_resultOf (fun _ => rfl) s

end

/-- Settles O42: the sign bit is `B[31]`, the magnitude bits are those of `A`, whatever either pattern encodes. -/
theorem copysign32TakesTheSignBitOfB : Obligations.Copysign32TakesTheSignBitOfB := by
  intro s a b
  refine ⟨decode_eq_instr_iff.2 rfl, _, answersOnly_copysignF32 a b s, ?sign, fun i hi => ?magnitude,
    fun i => getLsbD_result32_of_ge _, ?self⟩
  case sign => rw [getLsbD_copysignF32Result a b (by decide), if_pos rfl]
  case magnitude => rw [getLsbD_copysignF32Result a b (by omega), if_neg (by omega)]
  case self => exact fun same => same ▸ copysignF32Result_self a

/-- Settles O43: the sign bit is `B[63]`, the magnitude bits are those of `A`, whatever either pattern encodes. -/
theorem copysign64TakesTheSignBitOfB : Obligations.Copysign64TakesTheSignBitOfB := by
  intro s a b
  refine ⟨decode_eq_instr_iff.2 rfl, _, answersOnly_copysignF64 a b s, ?sign, fun i hi => ?magnitude, ?self⟩
  case sign => rw [getLsbD_copysignF64Result a b (by decide), if_pos rfl]
  case magnitude => rw [getLsbD_copysignF64Result a b (by omega), if_neg (by omega)]
  case self => exact fun same => same ▸ copysignF64Result_self a

end Sys2Proof.Machine
end

section
/-! PROOF. The rotates of the INT64 group (spec/42_bitops64.md R141, R142; O28, O29): the operand is the whole of `A`,
so what holds of the rotates at any width holds of the results as they stand. -/

namespace Sys2Proof.Machine

theorem amount64_lt (b : Word64) : amount64 b < 64 := (b.extractLsb' 0 6).isLt

section
variable (a b : Word64)

theorem rotl64Result_eq : rotl64Result a b = rotl a (b.toNat % 64) := by rw [rotl64Result, amount64_eq_mod]

theorem rotr64Result_eq : rotr64Result a b = rotr a (b.toNat % 64) := by rw [rotr64Result, amount64_eq_mod]

theorem getLsbD_rotl64Result {i : Nat} (hi : i < 64) :
    (rotl64Result a b).getLsbD ((i + b.toNat % 64) % 64) = a.getLsbD i := by
  rw [rotl64Result_eq, getLsbD_rotl_add_mod a (Nat.mod_lt _ (by decide)) hi]

theorem getLsbD_rotr64Result {i : Nat} (hi : i < 64) :
    (rotr64Result a b).getLsbD i = a.getLsbD ((i + b.toNat % 64) % 64) := by
  rw [rotr64Result_eq, getLsbD_rotr_eq_add_mod a (Nat.mod_lt _ (by decide)) hi]

theorem rotr64Result_eq_rotl : rotr64Result a b = rotl a ((64 - b.toNat % 64) % 64) := by
  rw [rotr64Result_eq, rotr_eq_rotl a (Nat.mod_lt _ (by decide))]

theorem rotl64Result_rotr64Result : rotl64Result (rotr64Result a b) b = a := rotl_rotr a (amount64_lt b)

theorem rotr64Result_rotl64Result : rotr64Result (rotl64Result a b) b = a := rotr_rotl a (amount64_lt b)

variable (s : State)

theorem answersOnly_rotl64 : AnswersOnly (.rotl64 a b) s (rotl64Result a b) :=
  answersOnly_resultOf (fun _ => rfl) s

theorem answersOnly_rotr64 : AnswersOnly (.rotr64 a b) s (rotr64Result a b) :=
  answersOnly_resultOf (fun _ => rfl) s

end

/-- Settles O28: the masked amount is below 64, so bit `i` of `A` goes to place `(i + n) % 64`. -/
theorem rotl64RotatesByTheMaskedAmount : Obligations.Rotl64RotatesByTheMaskedAmount := fun s a b =>
  ⟨decode_eq_instr_iff.2 rfl, _, answersOnly_rotl64 a b s, rotl64Result_eq a b, fun _ => getLsbD_rotl64Result a b⟩

/-- Settles O29: the right rotate is the left rotate by `(64 - n) % 64`, and the two rotates of one `B` undo each other
because both amounts are the same masked one. -/
theorem rotr64RotatesByTheMaskedAmount : Obligations.Rotr64RotatesByTheMaskedAmount := by
  intro s a b
  refine ⟨decode_eq_instr_iff.2 rfl, _, answersOnly_rotr64 a b s, rotr64Result_eq a b,
    fun _ => getLsbD_rotr64Result a b, rotr64Result_eq_rotl a b,
    fun s' => ?leftAfterRight, fun s' q hq => ?rightAfterLeft⟩
  case leftAfterRight => simpa only [rotl64Result_rotr64Result] using answersOnly_rotl64 (rotr64Result a b) b s'
  case rightAfterLeft =>
    have left : q = rotl64Result a b := hq.result_unique (answersOnly_rotl64 a b s')
    simpa only [left, rotr64Result_rotl64Result] using answersOnly_rotr64 q b s'

end Sys2Proof.Machine
end

section
/-! PROOF. What pins a count down, at any width (spec/00_scope.md R13): the properties of `clz_spec` and `ctz_spec` hold
of one number only, and the count is the whole width for zero alone. -/

namespace Sys2Proof.Machine

variable {w c : Nat} {v : BitVec w}

theorem clz_le_width (v : BitVec w) : clz v ≤ w := (clz_spec v).1

theorem ctz_le_width (v : BitVec w) : ctz v ≤ w := (ctz_spec v).1

theorem clz_eq_of_spec (le : c ≤ w) (clear : ∀ i < w, w - c ≤ i → v.getLsbD i = false)
    (set : c < w → v.getLsbD (w - 1 - c) = true) : clz v = c := by
  obtain ⟨le', clear', set'⟩ := clz_spec v
  obtain less | same | more := Nat.lt_trichotomy (clz v) c
  · exact absurd (set' (by omega)) (by simp [clear _ (by omega : w - 1 - clz v < w) (by omega)])
  · exact same
  · exact absurd (set (by omega)) (by simp [clear' _ (by omega : w - 1 - c < w) (by omega)])

theorem ctz_eq_of_spec (le : c ≤ w) (clear : ∀ i < c, v.getLsbD i = false) (set : c < w → v.getLsbD c = true) :
    ctz v = c := by
  obtain ⟨le', clear', set'⟩ := ctz_spec v
  obtain less | same | more := Nat.lt_trichotomy (ctz v) c
  · exact absurd (set' (by omega)) (by simp [clear _ less])
  · exact same
  · exact absurd (set (by omega)) (by simp [clear' _ more])

theorem clz_eq_width_iff : clz v = w ↔ v = 0 := by
  constructor
  · intro full
    obtain ⟨-, clear, -⟩ := clz_spec v
    exact BitVec.eq_of_getLsbD_eq fun i hi => by simp [clear i hi (by omega)]
  · rintro rfl
    exact clz_eq_of_spec le_rfl (fun _ _ _ => BitVec.getLsbD_zero) fun h => absurd h (lt_irrefl w)

theorem ctz_eq_width_iff : ctz v = w ↔ v = 0 := by
  constructor
  · intro full
    obtain ⟨-, clear, -⟩ := ctz_spec v
    exact BitVec.eq_of_getLsbD_eq fun i hi => by simp [clear i (by omega)]
  · rintro rfl
    exact ctz_eq_of_spec le_rfl (fun _ _ => BitVec.getLsbD_zero) fun h => absurd h (lt_irrefl w)

end Sys2Proof.Machine
end

section
/-! PROOF. The counts of the INT64 group (spec/42_bitops64.md R143 to R145; O30 to O32): counting by halves is counting
over the 64 bits, because a half that is not zero ends the count inside itself and one that is zero adds 32. -/

namespace Sys2Proof.Machine

theorem word32_ushiftRight (a : Word64) : word32 (a >>> 32) = highHalf a := by
  rw [word32_eq_setWidth, highHalf_eq_setWidth]

theorem getLsbD_eq_highHalf (a : Word64) {i : Nat} (lo : 32 ≤ i) (hi : i < 64) :
    a.getLsbD i = (highHalf a).getLsbD (i - 32) := by
  rw [getLsbD_highHalf a (by omega), Nat.add_sub_cancel' lo]

/-- R143: "This equals `clz_64(A)` for every `A`". -/
theorem clz_eq_by_halves (a : Word64) :
    clz a = if highHalf a = 0 then clz (highHalf a) + clz (word32 a) else clz (highHalf a) := by
  split
  · next zero =>
    rw [clz_eq_width_iff.2 zero]
    obtain ⟨le, clear, set⟩ := clz_word32_spec a
    refine clz_eq_of_spec (by omega) (fun i hi above => ?_) (fun more => ?_)
    · by_cases low : i < 32
      · exact clear i low (by omega)
      · rw [getLsbD_eq_highHalf a (by omega) hi, zero, BitVec.ofNat_eq_ofNat, BitVec.getLsbD_zero]
    · rw [show 64 - 1 - (32 + clz (word32 a)) = 31 - clz (word32 a) by omega, set (by omega)]
  · next nonzero =>
    obtain ⟨le, clear, set⟩ := clz_spec (highHalf a)
    have inside : clz (highHalf a) < 32 := lt_of_le_of_ne le (mt clz_eq_width_iff.1 nonzero)
    refine clz_eq_of_spec (by omega) (fun i hi above => ?_) (fun _ => ?_)
    · rw [getLsbD_eq_highHalf a (by omega) hi, clear _ (by omega) (by omega)]
    · rw [getLsbD_eq_highHalf a (by omega) (by omega), Nat.sub_right_comm _ _ 32, set inside]

/-- R144: "This equals `ctz_64(A)` for every `A`". -/
theorem ctz_eq_by_halves (a : Word64) :
    ctz a = if word32 a = 0 then ctz (word32 a) + ctz (highHalf a) else ctz (word32 a) := by
  obtain ⟨leLow, clearLow, setLow⟩ := ctz_word32_spec a
  split
  · next zero =>
    rw [ctz_eq_width_iff.2 zero] at clearLow ⊢
    obtain ⟨le, clear, set⟩ := ctz_spec (highHalf a)
    refine ctz_eq_of_spec (by omega) (fun i below => ?_) (fun more => ?_)
    · by_cases low : i < 32
      · exact clearLow i low
      · rw [getLsbD_eq_highHalf a (by omega) (by omega), clear _ (by omega)]
    · rw [← getLsbD_highHalf a (by omega), set (by omega)]
  · next nonzero =>
    have inside : ctz (word32 a) < 32 := lt_of_le_of_ne leLow (mt ctz_eq_width_iff.1 nonzero)
    exact ctz_eq_of_spec (by omega) clearLow fun _ => setLow inside

section
variable (a b : Word64) (s : State)

theorem clz64Result_eq : clz64Result a = BitVec.ofNat 64 (clz a) := by
  rw [clz64Result, ← clz_eq_by_halves, resultCount]

theorem ctz64Result_eq : ctz64Result a = BitVec.ofNat 64 (ctz a) := by
  rw [ctz64Result, ← ctz_eq_by_halves, resultCount]

theorem answersOnly_clz64 : AnswersOnly (.clz64 a b) s (BitVec.ofNat 64 (clz a)) :=
  clz64Result_eq a ▸ answersOnly_resultOf (fun _ => rfl) s

theorem answersOnly_ctz64 : AnswersOnly (.ctz64 a b) s (BitVec.ofNat 64 (ctz a)) :=
  ctz64Result_eq a ▸ answersOnly_resultOf (fun _ => rfl) s

theorem answersOnly_popcnt64 : AnswersOnly (.popcnt64 a b) s (BitVec.ofNat 64 (popcount a)) :=
  answersOnly_resultOf (fun _ => rfl) s

theorem answersOnly_clz32_highHalf : AnswersOnly (.clz32 (a >>> 32) b) s (BitVec.ofNat 64 (clz (highHalf a))) :=
  word32_ushiftRight a ▸ answersOnly_clz32 (a >>> 32) b s

theorem answersOnly_ctz32_highHalf : AnswersOnly (.ctz32 (a >>> 32) b) s (BitVec.ofNat 64 (ctz (highHalf a))) :=
  word32_ushiftRight a ▸ answersOnly_ctz32 (a >>> 32) b s

end

/-- Settles O30: the count by halves is that of all 64 bits, whose properties are `clz_spec`. -/
theorem clz64CountsByHalves : Obligations.Clz64CountsByHalves := by
  intro s a b
  refine ⟨decode_eq_instr_iff.2 rfl, clz a, clz (highHalf a), clz (word32 a), answersOnly_clz64 a b s,
    answersOnly_clz32_highHalf a b s, answersOnly_clz32 a b s, clz_le_width _, clz_le_width _, ?byHalves, clz_spec a⟩
  case byHalves => simp only [clz_eq_by_halves a, highHalf_eq_zero_iff]

/-- Settles O31: the count by halves is that of all 64 bits, whose properties are `ctz_spec`. -/
theorem ctz64CountsByHalves : Obligations.Ctz64CountsByHalves := by
  intro s a b
  refine ⟨decode_eq_instr_iff.2 rfl, ctz a, ctz (highHalf a), ctz (word32 a), answersOnly_ctz64 a b s,
    answersOnly_ctz32_highHalf a b s, answersOnly_ctz32 a b s, ctz_le_width _, ctz_le_width _, ?byHalves, ctz_spec a⟩
  case byHalves => simp only [ctz_eq_by_halves a, word32_eq_zero_iff]

/-- Settles O32: the ones counted below the width are the places of `A` that are set. -/
theorem popcnt64CountsTheOnes : Obligations.Popcnt64CountsTheOnes := fun s a b =>
  ⟨decode_eq_instr_iff.2 rfl, popcount_eq_card a ▸ answersOnly_popcnt64 a b s⟩

end Sys2Proof.Machine
end

section
/-! PROOF. The TRUNCSAT group (spec/43_trunc_sat.md R160 to R170; O44 to O53): each operation encodes the pipeline of
its bounds on its decoded source, so the eight statements are two, one for each source format, and comparing the source
itself with the bounds is a fact about rational numbers. -/

namespace Sys2Proof.Machine

/-- The pipeline on a binary32 source, clause by clause. -/
theorem saturate_fdecode32 (lo hi : ℤ) (a : Word64) :
    (isNaN32 a → saturate lo hi (fdecode32 (word32 a)) = 0) ∧
    (isInf32 a → saturate lo hi (fdecode32 (word32 a)) = if a.getLsbD 31 then lo else hi) ∧
    (¬ allOnes32 a →
      saturate lo hi (fdecode32 (word32 a)) = clampInt lo hi (truncTowardZero (value32 a))) := by
  rw [fdecode32_word32]
  exact saturate_classify binary32 lo hi ..

/-- The pipeline on a binary64 source, clause by clause. -/
theorem saturate_fdecode64 (lo hi : ℤ) (a : Word64) :
    (isNaN64 a → saturate lo hi (fdecode64 a) = 0) ∧
    (isInf64 a → saturate lo hi (fdecode64 a) = if a.getLsbD 63 then lo else hi) ∧
    (¬ allOnes64 a → saturate lo hi (fdecode64 a) = clampInt lo hi (truncTowardZero (value64 a))) := by
  rw [fdecode64_eq]
  exact saturate_classify binary64 lo hi ..

section
variable {a : Word64} (b : Word64) (s : State) {k : ℤ}

theorem answersOnly_truncsatS32F32 (hk : saturate (-2 ^ 31) (2 ^ 31 - 1) (fdecode32 (word32 a)) = k) :
    AnswersOnly (.truncsatS32F32 a b) s ((BitVec.ofInt 32 k).setWidth 64) :=
  hk ▸ answersOnly_resultOf (fun _ => rfl) s

theorem answersOnly_truncsatS32F64 (hk : saturate (-2 ^ 31) (2 ^ 31 - 1) (fdecode64 a) = k) :
    AnswersOnly (.truncsatS32F64 a b) s ((BitVec.ofInt 32 k).setWidth 64) :=
  hk ▸ answersOnly_resultOf (fun _ => rfl) s

theorem answersOnly_truncsatU32F32 (hk : saturate 0 (2 ^ 32 - 1) (fdecode32 (word32 a)) = k) :
    AnswersOnly (.truncsatU32F32 a b) s ((BitVec.ofInt 32 k).setWidth 64) :=
  hk ▸ answersOnly_resultOf (fun _ => rfl) s

theorem answersOnly_truncsatU32F64 (hk : saturate 0 (2 ^ 32 - 1) (fdecode64 a) = k) :
    AnswersOnly (.truncsatU32F64 a b) s ((BitVec.ofInt 32 k).setWidth 64) :=
  hk ▸ answersOnly_resultOf (fun _ => rfl) s

theorem answersOnly_truncsatS64F32 (hk : saturate (-2 ^ 63) (2 ^ 63 - 1) (fdecode32 (word32 a)) = k) :
    AnswersOnly (.truncsatS64F32 a b) s (BitVec.ofInt 64 k) :=
  hk ▸ answersOnly_resultOf (fun _ => rfl) s

theorem answersOnly_truncsatS64F64 (hk : saturate (-2 ^ 63) (2 ^ 63 - 1) (fdecode64 a) = k) :
    AnswersOnly (.truncsatS64F64 a b) s (BitVec.ofInt 64 k) :=
  hk ▸ answersOnly_resultOf (fun _ => rfl) s

theorem answersOnly_truncsatU64F32 (hk : saturate 0 (2 ^ 64 - 1) (fdecode32 (word32 a)) = k) :
    AnswersOnly (.truncsatU64F32 a b) s (BitVec.ofInt 64 k) :=
  hk ▸ answersOnly_resultOf (fun _ => rfl) s

theorem answersOnly_truncsatU64F64 (hk : saturate 0 (2 ^ 64 - 1) (fdecode64 a) = k) :
    AnswersOnly (.truncsatU64F64 a b) s (BitVec.ofInt 64 k) :=
  hk ▸ answersOnly_resultOf (fun _ => rfl) s

end

/-- Settles O44: the answer encodes the pipeline with the bounds of `truncSatS32` on the binary32 source. -/
theorem truncsatS32F32TruncatesAndSaturates : Obligations.TruncsatS32F32TruncatesAndSaturates := fun s a b =>
  ⟨decode_eq_instr_iff.2 rfl, _, answersOnly_truncsatS32F32 b s rfl, saturate_fdecode32 _ _ a⟩

/-- Settles O45: the answer encodes the pipeline with the bounds of `truncSatS32` on the binary64 source. -/
theorem truncsatS32F64TruncatesAndSaturates : Obligations.TruncsatS32F64TruncatesAndSaturates := fun s a b =>
  ⟨decode_eq_instr_iff.2 rfl, _, answersOnly_truncsatS32F64 b s rfl, saturate_fdecode64 _ _ a⟩

/-- Settles O46: the answer encodes the pipeline with the bounds of `truncSatU32` on the binary32 source. -/
theorem truncsatU32F32TruncatesAndSaturates : Obligations.TruncsatU32F32TruncatesAndSaturates := fun s a b =>
  ⟨decode_eq_instr_iff.2 rfl, _, answersOnly_truncsatU32F32 b s rfl, saturate_fdecode32 _ _ a⟩

/-- Settles O47: the answer encodes the pipeline with the bounds of `truncSatU32` on the binary64 source. -/
theorem truncsatU32F64TruncatesAndSaturates : Obligations.TruncsatU32F64TruncatesAndSaturates := fun s a b =>
  ⟨decode_eq_instr_iff.2 rfl, _, answersOnly_truncsatU32F64 b s rfl, saturate_fdecode64 _ _ a⟩

/-- Settles O48: the answer encodes the pipeline with the bounds of `truncSatS64` on the binary32 source. -/
theorem truncsatS64F32TruncatesAndSaturates : Obligations.TruncsatS64F32TruncatesAndSaturates := fun s a b =>
  ⟨decode_eq_instr_iff.2 rfl, _, answersOnly_truncsatS64F32 b s rfl, saturate_fdecode32 _ _ a⟩

/-- Settles O49: the answer encodes the pipeline with the bounds of `truncSatS64` on the binary64 source. -/
theorem truncsatS64F64TruncatesAndSaturates : Obligations.TruncsatS64F64TruncatesAndSaturates := fun s a b =>
  ⟨decode_eq_instr_iff.2 rfl, _, answersOnly_truncsatS64F64 b s rfl, saturate_fdecode64 _ _ a⟩

/-- Settles O50: the answer encodes the pipeline with the bounds of `truncSatU64` on the binary32 source. -/
theorem truncsatU64F32TruncatesAndSaturates : Obligations.TruncsatU64F32TruncatesAndSaturates := fun s a b =>
  ⟨decode_eq_instr_iff.2 rfl, _, answersOnly_truncsatU64F32 b s rfl, saturate_fdecode32 _ _ a⟩

/-- Settles O51: the answer encodes the pipeline with the bounds of `truncSatU64` on the binary64 source. -/
theorem truncsatU64F64TruncatesAndSaturates : Obligations.TruncsatU64F64TruncatesAndSaturates := fun s a b =>
  ⟨decode_eq_instr_iff.2 rfl, _, answersOnly_truncsatU64F64 b s rfl, saturate_fdecode64 _ _ a⟩

/-- Settles O52: whatever the bounds, the pipeline takes a NaN to 0, whose encoding is 0 at either width. -/
theorem nanTruncatesToZeroEverywhere : Obligations.NaNTruncatesToZeroEverywhere := by
  intro s a b
  refine ⟨fun nan => ?binary32, fun nan => ?binary64⟩
  case binary32 =>
    have zero lo hi := (saturate_fdecode32 lo hi a).1 nan
    exact ⟨answersOnly_truncsatS32F32 b s (zero ..), answersOnly_truncsatU32F32 b s (zero ..),
      answersOnly_truncsatS64F32 b s (zero ..), answersOnly_truncsatU64F32 b s (zero ..)⟩
  case binary64 =>
    have zero lo hi := (saturate_fdecode64 lo hi a).1 nan
    exact ⟨answersOnly_truncsatS32F64 b s (zero ..), answersOnly_truncsatU32F64 b s (zero ..),
      answersOnly_truncsatS64F64 b s (zero ..), answersOnly_truncsatU64F64 b s (zero ..)⟩

/-- The upper bound `top - 1` may be spelled `top` (R170): a number between the two truncates to the lower. -/
theorem clampInt_truncTowardZero_below {lo top : ℤ} (htop : 1 < top) (hlo : lo ≤ 0) (x : ℚ) :
    clampInt lo (top - 1) (truncTowardZero x) =
      if x ≥ top then top - 1 else if x ≤ lo then lo else truncTowardZero x := by
  have loNonpos : (lo : ℚ) ≤ 0 := by exact_mod_cast hlo
  have topAboveOne : (1 : ℚ) < top := by exact_mod_cast htop
  rw [clampInt_truncTowardZero (by omega) hlo, Int.cast_sub, Int.cast_one]
  by_cases between : top - 1 ≤ x ∧ x < top
  · obtain ⟨above, below⟩ := between
    have truncated : truncTowardZero x = top - 1 := by
      rw [truncTowardZero, if_pos (by linarith), Int.floor_eq_iff]
      push_cast
      exact ⟨above, by linarith⟩
    rw [if_pos above, if_neg (by linarith), if_neg (by linarith), truncated]
  · have same : x ≥ top - 1 ↔ x ≥ top :=
      ⟨fun above => not_lt.1 fun below => between ⟨above, below⟩, fun above => by linarith⟩
    rw [if_congr same rfl rfl]

section
variable (x : ℚ)

theorem clampInt_s32_eq : clampInt (-2 ^ 31) (2 ^ 31 - 1) (truncTowardZero x) =
    if x ≥ 2 ^ 31 - 1 then 2 ^ 31 - 1 else if x ≤ -2 ^ 31 then -2 ^ 31 else truncTowardZero x := by
  have spelt := clampInt_truncTowardZero (show (0 : ℤ) < 2 ^ 31 - 1 by decide) (show (-2 ^ 31 : ℤ) ≤ 0 by decide) x
  exact_mod_cast spelt

theorem clampInt_u32_eq : clampInt 0 (2 ^ 32 - 1) (truncTowardZero x) =
    if x ≥ 2 ^ 32 - 1 then 2 ^ 32 - 1 else if x ≤ 0 then 0 else truncTowardZero x := by
  have spelt := clampInt_truncTowardZero (show (0 : ℤ) < 2 ^ 32 - 1 by decide) le_rfl x
  exact_mod_cast spelt

theorem clampInt_s64_eq : clampInt (-2 ^ 63) (2 ^ 63 - 1) (truncTowardZero x) =
    if x ≥ 2 ^ 63 then 2 ^ 63 - 1 else if x ≤ -2 ^ 63 then -2 ^ 63 else truncTowardZero x := by
  have spelt := clampInt_truncTowardZero_below (show (1 : ℤ) < 2 ^ 63 by decide) (show (-2 ^ 63 : ℤ) ≤ 0 by decide) x
  exact_mod_cast spelt

theorem clampInt_u64_eq : clampInt 0 (2 ^ 64 - 1) (truncTowardZero x) =
    if x ≥ 2 ^ 64 then 2 ^ 64 - 1 else if x ≤ 0 then 0 else truncTowardZero x := by
  have spelt := clampInt_truncTowardZero_below (show (1 : ℤ) < 2 ^ 64 by decide) le_rfl x
  exact_mod_cast spelt

end

/-- Settles O53: a finite source is clamped as its rational value is, and the spelling of the bounds does not matter for
any rational value. -/
theorem boundComparisonsDoNotDependOnSpelling : Obligations.BoundComparisonsDoNotDependOnSpelling := by
  intro s a b
  refine ⟨fun finite => ?binary32, fun finite => ?binary64⟩
  case binary32 =>
    have clamped lo hi := (saturate_fdecode32 lo hi a).2.2 finite
    exact ⟨answersOnly_truncsatS32F32 b s ((clamped ..).trans (clampInt_s32_eq _)),
      answersOnly_truncsatU32F32 b s ((clamped ..).trans (clampInt_u32_eq _)),
      answersOnly_truncsatS64F32 b s ((clamped ..).trans (clampInt_s64_eq _)),
      answersOnly_truncsatU64F32 b s ((clamped ..).trans (clampInt_u64_eq _))⟩
  case binary64 =>
    have clamped lo hi := (saturate_fdecode64 lo hi a).2.2 finite
    exact ⟨answersOnly_truncsatS32F64 b s ((clamped ..).trans (clampInt_s32_eq _)),
      answersOnly_truncsatU32F64 b s ((clamped ..).trans (clampInt_u32_eq _)),
      answersOnly_truncsatS64F64 b s ((clamped ..).trans (clampInt_s64_eq _)),
      answersOnly_truncsatU64F64 b s ((clamped ..).trans (clampInt_u64_eq _))⟩

end Sys2Proof.Machine
end

section
/-! PROOF. The SEXT64 group (spec/44_sign_extend.md R180 to R183; O33 to O35): the three operations are one method at
three field widths, whose bits are `getLsbD_extendField` and whose value is that of `sext_64`. -/

namespace Sys2Proof.Machine

theorem toInt_extendField {M : Nat} (hM : 0 < M ∧ M ≤ 32) (a : Word64) :
    (extendField M a).toInt = (a.setWidth M).toInt := by
  have fits : M ≤ 64 := hM.2.trans (by decide)
  rw [extendField_eq_signExtend hM, BitVec.toInt_signExtend_of_le fits]

section
variable (a b : Word64) (s : State)

theorem answersOnly_sext8 : AnswersOnly (.sext8 a b) s (extendField 8 a) := answersOnly_resultOf (fun _ => rfl) s

theorem answersOnly_sext16 : AnswersOnly (.sext16 a b) s (extendField 16 a) := answersOnly_resultOf (fun _ => rfl) s

theorem answersOnly_sext32 : AnswersOnly (.sext32 a b) s (extendField 32 a) := answersOnly_resultOf (fun _ => rfl) s

end

/-- Settles O33: the method of R180 at width 8, where its mask `2 ^ 8 - 1` is `0xFF`. -/
theorem sext8SignExtendsItsField : Obligations.Sext8SignExtendsItsField := fun s a b =>
  ⟨decode_eq_instr_iff.2 rfl, _, answersOnly_sext8 a b s, fun _ => getLsbD_extendField 8 a,
    toInt_extendField (by decide) a, rfl⟩

/-- Settles O34: the method of R180 at width 16, where its mask `2 ^ 16 - 1` is `0xFFFF`. -/
theorem sext16SignExtendsItsField : Obligations.Sext16SignExtendsItsField := fun s a b =>
  ⟨decode_eq_instr_iff.2 rfl, _, answersOnly_sext16 a b s, fun _ => getLsbD_extendField 16 a,
    toInt_extendField (by decide) a, rfl⟩

/-- Settles O35: the method of R180 at width 32, where its mask `2 ^ 32 - 1` is the 64-bit `0x00000000FFFFFFFF` (R183). -/
theorem sext32SignExtendsItsField : Obligations.Sext32SignExtendsItsField := fun s a b =>
  ⟨decode_eq_instr_iff.2 rfl, _, answersOnly_sext32 a b s, fun _ => getLsbD_extendField 32 a,
    toInt_extendField (by decide) a, rfl⟩

end Sys2Proof.Machine
end

section
/-! PROOF. What a step raises (spec/60_exceptions.md R190 to R193; O11, O13): it never stops, and the answer it adds for a
command has `ILLEGAL` set exactly when the `op` lies in a reserved range. -/

namespace Sys2Proof.Machine

/-- Settles O11: the state that follows is given for every state. -/
theorem noStepEverStops : Obligations.NoStepEverStops := fun s => ⟨successor s, step_eq_next_successor s⟩

theorem responseTo_illegal (c : Command) : (responseTo c).illegal = isReservedOp c.op := by
  cases hd : decode c with
  | instr i =>
    rw [responseTo, hd, ← decode_eq_instr_iff.1 hd]
    exact (isReservedOp_opcode i).symm
  | reserved why =>
    rw [responseTo, hd, isReservedOp_of_decode_eq_reserved hd]
    rfl

/-- The legal codes of R80, as numbers, are the `op`s of the mnemonic table. -/
theorem isReservedOp_eq_false_iff_toNat_mem_ops (op : BitVec 8) :
    isReservedOp op = false ↔ op.toNat ∈ (mnemonics.map (·.op)).map BitVec.toNat := by
  rw [isReservedOp_eq_false_iff_mem_ops, List.mem_map_of_injective BitVec.toNat_injective]

/-- Settles O13: `ILLEGAL` of the answer tells whether the `op` is reserved, and the codes that are not are the 28 of the
table. -/
theorem legalOpsNeverRaiseIllegal : Obligations.LegalOpsNeverRaiseIllegal := by
  intro s op a b rest h
  obtain ⟨t, ht, answers⟩ := step_command_answers h
  refine ⟨t, responseTo ⟨op, a, b⟩, ht, answers, ?_⟩
  rw [responseTo_illegal]
  exact isReservedOp_eq_false_iff_toNat_mem_ops op

end Sys2Proof.Machine
end

section
/-! PROOF. A system right after reset (spec/60_exceptions.md R201; O22). -/

namespace Sys2Proof.Machine

theorem systemReset_length : System.reset.length = Config.nInst := by
  rw [System.reset, List.length_map, List.length_range]

theorem getElem?_systemReset {k : Nat} (hk : k < Config.nInst) : System.reset[k]? = some (State.resetOf k) := by
  rw [System.reset, List.getElem?_map, List.getElem?_range hk, Option.map_some]

/-- Settles O22: instance `k` is the unit `k` right after reset, for which nothing waits and of whose `S` no byte is
written. -/
theorem systemResetHoldsEveryInstance : Obligations.SystemResetHoldsEveryInstance :=
  ⟨systemReset_length, Nat.succ_pos _, fun k hk =>
    ⟨State.resetOf k, getElem?_systemReset hk, rfl, resetOf_inputs k, resetOf_answers k, step_idle (resetOf_inputs k),
      scratchByte_of_scratch_eq_nil (resetOf_scratch k)⟩⟩

end Sys2Proof.Machine
end
